-- ==== Sys2Proof/Word.lean ====
section
/-! DEFINITION. The bit vectors of the block. Every quantity is unsigned (R10, R139). -/

namespace Sys2Proof

/-- A byte is 8 bits (R10). -/
abbrev Byte := BitVec 8

/-- A command word `cmd[47:0]` (R70). -/
abbrev CmdWord := BitVec 48

/-- A response word `rsp[71:0]` (R78). -/
abbrev RspWord := BitVec 72

end Sys2Proof
end

