-- ==== Sys2Proof/Syntax.lean ====
section
/-! DEFINITION. The five commands of R73, one constructor per row of spec/opcode_table.json. -/

namespace Sys2Proof

/-- A decoded command with its operands (R72, R74). `port` is the raw 8-bit port field: whether it names an
existing port is checked by the command's meaning (R72, R185). -/
inductive Instr where
  /-- `LOOKUP baud` (R100) -/
  | lookup (baud : BitVec 32)
  /-- `RXBYTE port, byte`, `brk` set when a break caused it (R120, R132) -/
  | rxbyte (port : Byte) (brk : Bool) (byte : Byte)
  /-- `READ port` (R135) -/
  | read (port : Byte)
  /-- `RECONF port` (R160) -/
  | reconf (port : Byte)
  /-- `STAT port` (R163) -/
  | stat (port : Byte)
  deriving DecidableEq, Repr

end Sys2Proof
end

