-- ==== Sys2Proof/WellFormed.lean ====
section
/-! DEFINITION. Well-formedness. An `Instr` needs no check: each operand field has exactly the width R71 and R74 give
it, so every term is the reading of some command word. What can be ill formed is a command WRITTEN AS TEXT (R81,
R82), whose operands are numbers; its check stands here, its translation in Machine/Asm.lean. -/

namespace Sys2Proof

/-- A command or pseudo-command of the assembler, operands as written (R81, R82). -/
inductive AsmCmd where
  | lookup (baud : Nat)
  | rxbyte (port byte : Nat)
  | read (port : Nat)
  | reconf (port : Nat)
  | stat (port : Nat)
  | rxbrk (port byte : Nat)
  | rxseq (port : Nat) (bytes : List Nat)
  | wframe (port : Nat) (payload : List Nat)
  | rframe (port : Nat) (payload : List Nat)
  deriving DecidableEq, Repr

/-- `baud: 0 .. 4294967295` (R81). -/
def baudInRange (n : Nat) : Bool := decide (n ≤ 4294967295)

/-- `port: 0 .. 255` (R81). Ports 3 to 255 are well formed: the block answers them with `InvalidPort`. -/
def portInRange (n : Nat) : Bool := decide (n ≤ 255)

/-- `byte: 0 .. 255` (R81). -/
def byteInRange (n : Nat) : Bool := decide (n ≤ 255)

/-- Operand ranges of R81; `RXSEQ` has at least one byte, `WFRAME` six and `RFRAME` three payload bytes (R82). -/
def AsmCmd.wellFormed : AsmCmd → Bool
  | .lookup b => baudInRange b
  | .rxbyte p b => portInRange p && byteInRange b
  | .read p => portInRange p
  | .reconf p => portInRange p
  | .stat p => portInRange p
  | .rxbrk p b => portInRange p && byteInRange b
  | .rxseq p bs => portInRange p && !bs.isEmpty && bs.all byteInRange
  | .wframe p bs => portInRange p && bs.length == 6 && bs.all byteInRange
  | .rframe p bs => portInRange p && bs.length == 3 && bs.all byteInRange

end Sys2Proof
end

