-- ==== Sys2Proof/Decode.lean ====
section
/-! DEFINITION. The decoder of R70 to R76, total on all 2^48 words, and the encoder. Decoding looks only at the word
(R72). -/

namespace Sys2Proof

/-- `op = cmd[47:40]` (R71). -/
def CmdWord.op (w : CmdWord) : Byte := w.extractLsb' 40 8

/-- `port = cmd[39:32]` (R71). -/
def CmdWord.port (w : CmdWord) : Byte := w.extractLsb' 32 8

/-- `arg = cmd[31:0]` (R71). -/
def CmdWord.arg (w : CmdWord) : BitVec 32 := w.extractLsb' 0 32

/-- The word of the three fields, most significant first (R71). -/
def CmdWord.ofFields (op port : Byte) (arg : BitVec 32) : CmdWord := op ++ port ++ arg

/-- `brk = arg[8]` (R74). -/
def brkOf (arg : BitVec 32) : Bool := arg.getLsbD 8

/-- `byte = arg[7:0]` (R74). -/
def byteOf (arg : BitVec 32) : Byte := arg.extractLsb' 0 8

/-- The operand of `RXBYTE`: `arg[31:9]` zero, then `brk`, then `byte` (R74). -/
def rxArg (brk : Bool) (byte : Byte) : BitVec 32 := (0 : BitVec 23) ++ BitVec.ofBool brk ++ byte

/-- A row of the opcode table. -/
inductive OpRow where
  | lookup | rxbyte | read | reconf | stat
  deriving DecidableEq, Repr

/-- The rows, in the table's order. -/
def OpRow.all : List OpRow := [.lookup, .rxbyte, .read, .reconf, .stat]

/-- The column `match` of R75. -/
def OpRow.bits : OpRow → CmdWord
  | .lookup => 0x010000000000#48
  | .rxbyte => 0x020000000000#48
  | .read   => 0x030000000000#48
  | .reconf => 0x040000000000#48
  | .stat   => 0x050000000000#48

/-- The column `mask` of R75. -/
def OpRow.mask : OpRow → CmdWord
  | .lookup => 0xFFFF00000000#48
  | .rxbyte => 0xFF00FFFFFE00#48
  | .read   => 0xFF00FFFFFFFF#48
  | .reconf => 0xFF00FFFFFFFF#48
  | .stat   => 0xFF00FFFFFFFF#48

/-- The word is a command of the row: `w AND mask == match` (R75). -/
def OpRow.holds (r : OpRow) (w : CmdWord) : Bool := (w &&& r.mask) == r.bits

/-- The row a word belongs to, if any. The rows are disjoint (R75), so their order does not matter. -/
def rowOf? (w : CmdWord) : Option OpRow := OpRow.all.find? (fun r => r.holds w)

/-- The command a row reads from a word: each field as the unsigned number its bits spell (R74). -/
def OpRow.instr (r : OpRow) (w : CmdWord) : Instr :=
  match r with
  | .lookup => .lookup w.arg
  | .rxbyte => .rxbyte w.port (brkOf w.arg) (byteOf w.arg)
  | .read   => .read w.port
  | .reconf => .reconf w.port
  | .stat   => .stat w.port

/-- Why a word is illegal (R76). -/
inductive Illegal where
  /-- `op = 0x00` or `op >= 0x06` -/
  | unknownOp
  /-- a known `op` and a non-zero reserved field -/
  | reservedField
  deriving DecidableEq, Repr

/-- What a word decodes to: exactly one of the five commands, or illegal (R72). -/
inductive Decoded where
  | command (i : Instr)
  | illegal (why : Illegal)
  deriving DecidableEq, Repr

/-- The opcode is one of R73's five. -/
def knownOp (op : Byte) : Bool := decide (1 ≤ op.toNat) && decide (op.toNat ≤ 5)

/-- The decoder of R72, total on the 2^48 words. -/
def decode (w : CmdWord) : Decoded :=
  match rowOf? w with
  | some r => .command (r.instr w)
  | none => .illegal (if knownOp w.op then .reservedField else .unknownOp)

/-- The word of a command, from the fields of R73 and R74. -/
def encode : Instr → CmdWord
  | .lookup baud       => CmdWord.ofFields 0x01#8 0x00#8 baud
  | .rxbyte p brk byte => CmdWord.ofFields 0x02#8 p (rxArg brk byte)
  | .read p            => CmdWord.ofFields 0x03#8 p 0#32
  | .reconf p          => CmdWord.ofFields 0x04#8 p 0#32
  | .stat p            => CmdWord.ofFields 0x05#8 p 0#32

/-- The word an opcode-table row of `nbits` bits with value `w` stands for; bits above `nbits` are zero. A command is
one word and has no byte serialisation (R53, R70), so the table's bit i is bit i of the word. -/
def wordOfTable (nbits w : Nat) : CmdWord := BitVec.ofNat 48 (w % 2 ^ nbits)

/-- What the decoder reads from a table word. -/
def decodeTableWord (nbits w : Nat) : Option Instr :=
  match decode (wordOfTable nbits w) with
  | .command i => some i
  | .illegal _ => none

end Sys2Proof
end

