-- ==== Sys2Proof/Config.lean ====
section
/-! DEFINITION. The parameters of R8: the constants the spec fixes, the configuration record it leaves open, the
refusal of ill-formed configurations (D30), and the open configuration of the reset state. -/

namespace Sys2Proof

/-- `WRITE_LEN`: total length in bytes of a write frame, identifier included (R8). -/
abbrev writeLen : Nat := 7

/-- `READ_LEN`: total length in bytes of a read frame, identifier included (R8). -/
abbrev readLen : Nat := 4

/-- One `BAUD_ROM` entry: divisor, first and second modulation value (R8, R30). -/
structure TimingParams where
  div  : BitVec 16
  mod1 : Byte
  mod2 : Byte
  deriving DecidableEq, Repr, Inhabited

/-- The open parameters of R8, before they are checked. -/
structure CfgData where
  /-- `WRITE_ID` -/
  writeId : Byte
  /-- `READ_ID` -/
  readId  : Byte
  /-- `CAP` -/
  cap     : Nat
  /-- `BAUD_ROM`, in ascending order of bit rate (R30). -/
  rom     : Vector TimingParams 10
  deriving DecidableEq, Repr

/-- The two constraints R8 puts on the values: the identifiers differ and `7 <= CAP <= 255`. -/
def CfgData.wellFormed (c : CfgData) : Bool :=
  c.writeId != c.readId && decide (7 ≤ c.cap) && decide (c.cap ≤ 255)

/-- The configuration record `Cfg` of R8. It carries its own check, so no machine of this model has a
configuration that D30 refuses. -/
structure Cfg extends CfgData where
  ok : toCfgData.wellFormed = true
  deriving DecidableEq, Repr

/-- A configuration as numbers, as whoever wires the block would write it down (R213). -/
structure RawCfg where
  writeId : Nat
  readId  : Nat
  cap     : Nat
  /-- (divisor, first modulation value, second modulation value) -/
  rom     : List (Nat × Nat × Nat)
  deriving DecidableEq, Repr

/-- One table entry, if it fits the widths of R8 (D5, U16). -/
def TimingParams.ofNats? (e : Nat × Nat × Nat) : Option TimingParams :=
  if e.1 < 2 ^ 16 ∧ e.2.1 < 2 ^ 8 ∧ e.2.2 < 2 ^ 8 then
    some ⟨BitVec.ofNat 16 e.1, BitVec.ofNat 8 e.2.1, BitVec.ofNat 8 e.2.2⟩
  else none

/-- The entries of a table, if every one fits. -/
def romOfNats? : List (Nat × Nat × Nat) → Option (List TimingParams)
  | [] => some []
  | e :: es =>
    match TimingParams.ofNats? e, romOfNats? es with
    | some t, some ts => some (t :: ts)
    | _, _ => none

/-- D30 and the last sentence of R8: a configuration outside the constraints is refused (`none`), any other is
given its `Cfg`. -/
def Config.accept (r : RawCfg) : Option Cfg :=
  match romOfNats? r.rom with
  | none => none
  | some ts =>
    if hlen : ts.toArray.size = 10 then
      if r.writeId < 2 ^ 8 ∧ r.readId < 2 ^ 8 then
        let c : CfgData := ⟨BitVec.ofNat 8 r.writeId, BitVec.ofNat 8 r.readId, r.cap, ⟨ts.toArray, hlen⟩⟩
        if h : c.wellFormed = true then some ⟨c, h⟩ else none
      else none
    else none

/-- The hardware's `WRITE_ID`: open, no value is known (D7, N3). -/
opaque Config.hwWriteId : Byte

/-- How far the hardware's `READ_ID` lies beyond `WRITE_ID + 1`: open. Every `READ_ID` other than `WRITE_ID` is
some gap (D7). -/
opaque Config.hwIdGap : Fin 255

/-- By how much the hardware's `CAP` exceeds 7: open (D8, N4). -/
opaque Config.hwCapAbove : Fin 249

/-- The hardware's `BAUD_ROM`: open (D6, N1). -/
opaque Config.hwRom : Vector TimingParams 10

/-- The open values, put together. -/
def Config.hwData : CfgData :=
  { writeId := Config.hwWriteId
    readId  := Config.hwWriteId + 1#8 + BitVec.ofNat 8 Config.hwIdGap.val
    cap     := Config.hwCapAbove.val + 7
    rom     := Config.hwRom }

theorem Config.hwData_wellFormed : Config.hwData.wellFormed = true := by
  have h1 := Config.hwIdGap.isLt
  have h2 := Config.hwCapAbove.isLt
  have h3 : Config.hwWriteId ≠ Config.hwWriteId + 1#8 + BitVec.ofNat 8 Config.hwIdGap.val := by
    intro h
    have h' := congrArg BitVec.toNat h
    have h4 := Config.hwWriteId.isLt
    simp only [BitVec.toNat_add, BitVec.toNat_ofNat] at h'
    omega
  have h5 : 7 ≤ Config.hwData.cap := Nat.le_add_left 7 _
  have h6 : Config.hwData.cap ≤ 255 := by
    show Config.hwCapAbove.val + 7 ≤ 255
    omega
  unfold CfgData.wellFormed
  rw [Bool.and_eq_true, Bool.and_eq_true, bne_iff_ne]
  exact ⟨⟨h3, decide_eq_true h5⟩, decide_eq_true h6⟩

/-- The configuration of the reset state (R213): open, but one that R8 admits. Nothing in Lean can find out which. -/
def Config.hardware : Cfg := ⟨Config.hwData, Config.hwData_wellFormed⟩

end Sys2Proof
end

