-- ==== Sys2Proof/Machine/State.lean ====
section
/-! DEFINITION. The state of the block as plain data (R31, R38), the reasons a step can stop, and the state after
reset (R37, R210). -/

namespace Sys2Proof.Machine

/-- The three ports, "enum {0,1,2}" (R8, R12). -/
inductive PortId where
  | p0 | p1 | p2
  deriving DecidableEq, Repr

/-- One accumulation buffer: index and byte of every byte that holds a value, indices strictly rising. An index that
is not listed holds no value (R37, R38). -/
abbrev Memory := List Host.Cell

/-- "One fully captured inbound frame" (R23): identifier, TOTAL length (7 or 4, C2) and `len - 1` payload bytes. -/
structure RxFrame where
  id      : Byte
  len     : Nat
  payload : List Byte
  deriving DecidableEq, Repr

/-- The state of one port (R38). The flag `ready` (R24) and the phase (R27) are read off it: Machine/Flags.lean. -/
structure PortState where
  /-- accumulation buffer (R21) -/
  acc      : Memory
  /-- write cursor (R25) -/
  cur      : Nat
  /-- completed-frame slot (R22) -/
  slot     : Option RxFrame
  /-- dropped-frame counter (R28) -/
  dropped  : BitVec 32
  /-- overlong-accumulation counter (R29) -/
  overlong : BitVec 32
  deriving DecidableEq, Repr

/-- The statuses the block can answer (R181, U8). `BackendInitFailed` (0x04) is never returned, so it is none. -/
inductive Status where
  | ok | invalidPort | unsupportedBaud | illegalCommand
  deriving DecidableEq, Repr

/-- One response (R78). Its 72-bit word is `Response.word` in Machine/Operands.lean. -/
structure Response where
  status : Status
  rdata  : BitVec 64
  deriving DecidableEq, Repr

/-- Why the machine stops. No state that meets the invariant of R35 reaches either: see Safety.lean. -/
inductive Fault where
  /-- Raised by RXBYTE when it reads a byte of `acc` that holds no value (R37, R35 item 2). Safe. -/
  | accUnwritten
  /-- Raised by RXBYTE when the cursor lies outside the buffer, so that the append of R123 has no byte to go to
  (R51, R35 item 1). Safe. -/
  | accOutOfRange
  deriving DecidableEq, Repr

/-- Why the model gives no meaning. -/
inductive Refusal where
  /-- Raised by an arm of `exec` for an instruction without a meaning; no arm of this model raises it. Safe. -/
  | notModelled (mnemonic : String)
  deriving DecidableEq, Repr

/-- The whole state: the three independent ports of R36 and R38, with what the step relation takes beside them (R7). -/
structure State where
  /-- the configuration of R8; no step writes it (log entry 1) -/
  cfg   : Cfg
  port0 : PortState
  port1 : PortState
  port2 : PortState
  /-- the environment's next commands, first one next (R7, R60; log entry 3) -/
  cmds  : List CmdWord
  /-- the responses so far, oldest first (R224; log entry 5) -/
  rsps  : List Response
  deriving DecidableEq, Repr

/-- A port after reset (R37): `Idle`, slot empty, counters zero, no byte of `acc` holding a value. -/
def PortState.reset : PortState := { acc := [], cur := 0, slot := none, dropped := 0#32, overlong := 0#32 }

/-- The state after reset of a block with the given configuration (R37, R210). -/
def State.resetWith (c : Cfg) : State :=
  { cfg := c, port0 := PortState.reset, port1 := PortState.reset, port2 := PortState.reset, cmds := [], rsps := [] }

/-- The state after reset of the hardware, whose configuration is open (log entry 2). -/
def State.reset : State := State.resetWith Config.hardware

end Sys2Proof.Machine
end

