-- ==== Sys2Proof/Machine/Ops.lean ====
section
/-! DEFINITION. The named operations over memory, ports, the command source and the responses, and `raise`, the one
shared operation of every error (R190). -/

namespace Sys2Proof.Machine

/-- The byte at an index, `none` where no value is held (`MemRead`, R10, R50). -/
def Memory.read (m : Memory) (a : Nat) : Option Byte :=
  match m with
  | [] => none
  | (k, b) :: rest => if a = k then some b else Memory.read rest a

/-- One byte written at an index (`MemWrite`, R10, R50); the list stays sorted. -/
def Memory.write (m : Memory) (a : Nat) (b : Byte) : Memory :=
  match m with
  | [] => [(a, b)]
  | (k, c) :: rest =>
    if a < k then (a, b) :: (k, c) :: rest
    else if a = k then (a, b) :: rest
    else (k, c) :: Memory.write rest a b

/-- The canonical form: indices strictly rising. An unlisted index holds no value and an entry holds one, so no entry
can equal what an unlisted index reads as. -/
abbrev Memory.wf (m : Memory) : Prop := m.Pairwise (fun x y => x.1 < y.1)

/-- `n` bytes at consecutive indices from `a` (R54); `none` if one of them holds no value. -/
def Memory.readFrom (m : Memory) (a : Nat) : Nat → Option (List Byte)
  | 0 => some []
  | n + 1 =>
    match m.read a, Memory.readFrom m (a + 1) n with
    | some b, some bs => some (b :: bs)
    | _, _ => none

/-- `frame(p, n)` of R11: the frame whose `n` bytes stand at indices 0 to n-1. -/
def frameOf? (acc : Memory) (n : Nat) : Option RxFrame :=
  match acc.readFrom 0 n with
  | some (id :: payload) => some { id := id, len := n, payload := payload }
  | _ => none

/-- The state indexed `p` (R36, R38). -/
def State.port (s : State) : PortId → PortState
  | .p0 => s.port0
  | .p1 => s.port1
  | .p2 => s.port2

/-- The state with the part indexed `p` replaced; the other two ports stay (R36). -/
def State.setPort (s : State) (p : PortId) (q : PortState) : State :=
  match p with
  | .p0 => { s with port0 := q }
  | .p1 => { s with port1 := q }
  | .p2 => { s with port2 := q }

/-- `respond(status, rdata)` (R10): the response is given. -/
def State.respond (s : State) (status : Status) (rdata : BitVec 64) : State :=
  { s with rsps := s.rsps ++ [{ status := status, rdata := rdata }] }

/-- `raise E` (R10, R190): status `E`, `rdata = 0`, and nothing else; no state is saved, no mode changes, and the block
is ready for the next command. There is no return from it (R191). -/
def State.raise (s : State) (e : Status) : State := s.respond e 0#64

/-- The answer to a word that is no command (R76, R184). -/
def State.answerIllegal (s : State) : State := s.raise .illegalCommand

/-- The environment presents its next command, if it has one: the word, and the state without it (R5, R7). -/
def State.takeCommand (s : State) : Option (CmdWord × State) :=
  match s.cmds with
  | [] => none
  | w :: rest => some (w, { s with cmds := rest })

/-- The environment puts a word before its other commands. -/
def State.offerFirst (s : State) (w : CmdWord) : State := { s with cmds := w :: s.cmds }

end Sys2Proof.Machine
end

