-- ==== Sys2Proof/Machine/Operands.lean ====
section
/-! DEFINITION. Operand forms (port field, bit rate) and result forms (the response word and the layouts of `rdata`,
R78, R79). -/

namespace Sys2Proof.Machine

/-- `valid_port` of R11: the port an 8-bit port field names, `none` for 3 to 255 (R182). -/
def portOf? (p8 : Byte) : Option PortId :=
  if p8 = 0#8 then some .p0
  else if p8 = 1#8 then some .p1
  else if p8 = 2#8 then some .p2
  else none

/-- `BAUD_SET` as the ten-entry table of R101, each rate with the index it selects. -/
def baudSet : List (BitVec 32 × Fin 10) :=
  [(1200#32, 0), (2400#32, 1), (4800#32, 2), (9600#32, 3), (19200#32, 4),
   (38400#32, 5), (57600#32, 6), (115200#32, 7), (230400#32, 8), (460800#32, 9)]

/-- `baud_index` of R11: exact equality on all 32 bits (R102). -/
def baudIndex (baud : BitVec 32) : Option (Fin 10) := baudSet.lookup baud

/-- The status codes of R181. -/
def Status.code : Status → Byte
  | .ok => 0x00#8
  | .invalidPort => 0x01#8
  | .unsupportedBaud => 0x02#8
  | .illegalCommand => 0x03#8

/-- The response word `rsp[71:0]`: `status` in bits 71:64, `rdata` in bits 63:0 (R78). -/
def Response.word (r : Response) : RspWord := r.status.code ++ r.rdata

/-- `lookup_rdata(div, mod1, mod2)` (R79, R100). -/
def lookupRdata (t : TimingParams) : BitVec 64 := 0#32 ++ t.div ++ t.mod1 ++ t.mod2

/-- `stat_rdata(dropped, overlong)` (R79, R163). -/
def statRdata (dropped overlong : BitVec 32) : BitVec 64 := overlong ++ dropped

/-- Byte `k` of a frame: byte 0 is `id`, byte `k` is `payload[k-1]`, and beyond the length it is 0 (R11, R22). -/
def RxFrame.byte (f : RxFrame) (k : Nat) : Byte :=
  if k < f.len then (f.id :: f.payload).getD k 0#8 else 0#8

/-- `pack(f)` of R11: bit 63 set, the length in bits 59:56, byte `k` in bits 8k+7:8k. -/
def RxFrame.pack (f : RxFrame) : BitVec 64 :=
  1#1 ++ 0#3 ++ BitVec.ofNat 4 f.len ++ f.byte 6 ++ f.byte 5 ++ f.byte 4 ++ f.byte 3 ++ f.byte 2 ++ f.byte 1 ++ f.byte 0

end Sys2Proof.Machine
end

