-- ==== Sys2Proof/Machine/Flags.lean ====
section
/-! DEFINITION. The ready flag and the register form of a port (R22, R24, R25, R27), the event counters' increment
(R10, R139) and the flags of an `RXBYTE` response (R79). -/

namespace Sys2Proof.Machine

/-- `ready[p]`, "frame ready" (R24). -/
def PortState.ready (q : PortState) : Bool := q.slot.isSome

/-- `slot_len[p]`, 0 when the slot is empty (R22). -/
def PortState.slotLen (q : PortState) : BitVec 4 :=
  match q.slot with
  | none => 0#4
  | some f => BitVec.ofNat 4 f.len

/-- `slot_dat[p][k]`, 0 when the slot is empty (R22). -/
def PortState.slotDat (q : PortState) (k : Nat) : Byte :=
  match q.slot with
  | none => 0#8
  | some f => f.byte k

/-- The source's states that can be observed between steps (R27). -/
inductive Phase where
  | idle | accumulating
  deriving DecidableEq, Repr

/-- `Idle` exactly when the cursor is 0 (R27). -/
def PortState.phase (q : PortState) : Phase := if q.cur = 0 then .idle else .accumulating

/-- `ceil(log2(CAP))`, the width of the cursor register (R25); `CAP >= 7`. -/
def curWidth (c : Cfg) : Nat := Nat.log2 (c.cap - 1) + 1

/-- The cursor as a register (R25). -/
def PortState.curReg (c : Cfg) (q : PortState) : BitVec (curWidth c) := BitVec.ofNat (curWidth c) q.cur

/-- `satinc_32`: one more, or unchanged at `2^32 - 1` (R10, R139). -/
def satInc (v : BitVec 32) : BitVec 32 := if v.toNat < 2 ^ 32 - 1 then v + 1#32 else v

/-- The three flags an `RXBYTE` answers with (R79, R189). -/
structure RxFlags where
  notify  : Bool
  drop    : Bool
  discard : Bool
  deriving DecidableEq, Repr

/-- `rx_rdata(notify, drop, discard)`: bits 0, 1 and 2, all others zero (R79). -/
def RxFlags.rdata (f : RxFlags) : BitVec 64 :=
  0#61 ++ BitVec.ofBool f.discard ++ BitVec.ofBool f.drop ++ BitVec.ofBool f.notify

end Sys2Proof.Machine
end

