-- ==== Sys2Proof/Machine/Baud.lean ====
section
/-! DEFINITION. The baud-rate parameter encoder: LOOKUP (R100 to R107). -/

namespace Sys2Proof.Machine

/-- LOOKUP (R100): the stored triple of a supported rate, `UnsupportedBaud` for any other operand (R102). Nothing is
computed from the rate (R104) and no state is read or written (R103). -/
def execLookup (baud : BitVec 32) (s : State) : Host.Outcome State Fault Refusal :=
  match baudIndex baud with
  | none => .next (s.raise .unsupportedBaud)
  | some i => .next (s.respond .ok (lookupRdata s.cfg.rom[i]))

end Sys2Proof.Machine
end

