-- ==== Sys2Proof/Machine/Control.lean ====
section
/-! DEFINITION. The control and status commands: RECONF and STAT (R160 to R165). -/

namespace Sys2Proof.Machine

/-- RECONF (R160): the cursor and the slot are emptied; the counters and the bytes of `acc` are kept (R161). -/
def execReconf (p8 : Byte) (s : State) : Host.Outcome State Fault Refusal :=
  match portOf? p8 with
  | none => .next (s.raise .invalidPort)
  | some p => .next ((s.setPort p { s.port p with cur := 0, slot := none }).respond .ok 0#64)

/-- STAT (R163): both counters, with no side effect (R164). -/
def execStat (p8 : Byte) (s : State) : Host.Outcome State Fault Refusal :=
  match portOf? p8 with
  | none => .next (s.raise .invalidPort)
  | some p => .next (s.respond .ok (statRdata (s.port p).dropped (s.port p).overlong))

end Sys2Proof.Machine
end

