-- ==== Sys2Proof/Machine/Receiver.lean ====
section
/-! DEFINITION. The fixed-length frame receiver: RXBYTE and READ (R120 to R141). -/

namespace Sys2Proof.Machine

/-- `complete(p, n)` (R128, R129): the `n` bytes of the buffer, the newest included, become the slot's frame, the
cursor goes to 0, and a frame still in the slot is lost and counted. -/
def PortState.complete (q : PortState) (acc : Memory) (n : Nat) : Except Fault (PortState × RxFlags) :=
  match frameOf? acc n with
  | none => .error .accUnwritten
  | some f =>
    .ok ({ acc := acc
           cur := 0
           slot := some f
           dropped := if q.ready then satInc q.dropped else q.dropped
           overlong := q.overlong },
         { notify := true, drop := q.ready, discard := false })

/-- Step 6 (R130): the byte just appended filled the buffer; everything accumulated is discarded and counted. -/
def PortState.discard (q : PortState) (acc : Memory) : PortState × RxFlags :=
  ({ q with acc := acc, cur := 0, overlong := satInc q.overlong },
   { notify := false, drop := false, discard := true })

/-- Step 5 (R131): keep accumulating with the advanced cursor. -/
def PortState.advance (q : PortState) (acc : Memory) (c : Nat) : PortState × RxFlags :=
  ({ q with acc := acc, cur := c }, { notify := false, drop := false, discard := false })

/-- One receive-interrupt invocation on one port (R120): append at the cursor (R123), then the tests in the order of
R124, on the first byte as it stands after the append and on the advanced cursor (R125). -/
def PortState.receive (cfg : Cfg) (q : PortState) (b : Byte) : Except Fault (PortState × RxFlags) :=
  if q.cur < cfg.cap then
    let acc := q.acc.write q.cur b
    let c := q.cur + 1
    match acc.read 0 with
    | none => .error .accUnwritten
    | some first =>
      if c = writeLen ∧ first = cfg.writeId then q.complete acc writeLen
      else if c = readLen ∧ first = cfg.readId then q.complete acc readLen
      else if c = cfg.cap then .ok (q.discard acc)
      else .ok (q.advance acc c)
  else .error .accOutOfRange

/-- RXBYTE (R120). `brk` records why the interrupt fired and changes nothing (R77, R132). -/
def execRxbyte (p8 : Byte) (_brk : Bool) (b : Byte) (s : State) : Host.Outcome State Fault Refusal :=
  match portOf? p8 with
  | none => .next (s.raise .invalidPort)
  | some p =>
    match (s.port p).receive s.cfg b with
    | .error f => .fault f
    | .ok (q, flags) => .next ((s.setPort p q).respond .ok flags.rdata)

/-- READ (R135): an atomic test and clear of the slot (R57, R63); an empty slot is answered with 0, no error. -/
def execRead (p8 : Byte) (s : State) : Host.Outcome State Fault Refusal :=
  match portOf? p8 with
  | none => .next (s.raise .invalidPort)
  | some p =>
    match (s.port p).slot with
    | some f => .next ((s.setPort p { s.port p with slot := none }).respond .ok f.pack)
    | none => .next (s.respond .ok 0#64)

end Sys2Proof.Machine
end

