-- ==== Sys2Proof/Machine/Dispatch.lean ====
section
/-! DEFINITION. One arm per command. -/

namespace Sys2Proof.Machine

def exec (i : Instr) (s : State) : Host.Outcome State Fault Refusal :=
  match i with
  | .lookup baud => Sys2Proof.Machine.execLookup baud s
  | .rxbyte p8 brk byte => Sys2Proof.Machine.execRxbyte p8 brk byte s
  | .read p8 => Sys2Proof.Machine.execRead p8 s
  | .reconf p8 => Sys2Proof.Machine.execReconf p8 s
  | .stat p8 => Sys2Proof.Machine.execStat p8 s

end Sys2Proof.Machine
end

