-- ==== Sys2Proof/Machine/Step.lean ====
section
/-! DEFINITION. One step: the execution of one command (R5), atomically (R57). -/

namespace Sys2Proof.Machine

/-- The block takes the environment's next command and answers it: a legal word is executed, an illegal one answered
`IllegalCommand` (R72, R76). When the environment offers none, nothing happens (R223, R224; log entry 4). -/
def step (s : State) : Host.Outcome State Fault Refusal :=
  match s.takeCommand with
  | none => .next s
  | some (w, s') =>
    match decode w with
    | .command i => exec i s'
    | .illegal _ => .next s'.answerIllegal

/-- The state in which the environment's next command is the table word (log entry 3). -/
def State.withFetchWord (s : State) (nbits w : Nat) : State := s.offerFirst (wordOfTable nbits w)

end Sys2Proof.Machine
end

