-- ==== Sys2Proof/Machine/Asm.lean ====
section
/-! DEFINITION. The assembler text of R81 and the pseudo-commands of R82. Text is a list of characters. Nothing here
takes part in a step. -/

namespace Sys2Proof.Machine

/-- The value of a digit, decimal or hexadecimal (R81). -/
def digitVal (c : Char) : Option Nat :=
  let n := c.toNat
  if 48 ≤ n ∧ n ≤ 57 then some (n - 48)
  else if 65 ≤ n ∧ n ≤ 70 then some (n - 55)
  else if 97 ≤ n ∧ n ≤ 102 then some (n - 87)
  else none

/-- The number the digits spell after `acc`. -/
def digitsVal (base acc : Nat) : List Char → Option Nat
  | [] => some acc
  | c :: cs =>
    match digitVal c with
    | some d => if d < base then digitsVal base (acc * base + d) cs else none
    | none => none

/-- A number, decimal or `0x` hexadecimal (R81). -/
def parseNumber : List Char → Option Nat
  | [] => none
  | ['0', 'x'] => none
  | '0' :: 'x' :: ds => digitsVal 16 0 ds
  | ds => digitsVal 10 0 ds

/-- Every one of a list of numbers. -/
def parseNumbers : List (List Char) → Option (List Nat)
  | [] => some []
  | t :: ts =>
    match parseNumber t, parseNumbers ts with
    | some n, some ns => some (n :: ns)
    | _, _ => none

/-- The words of a line, a comma being a word of its own; `;` begins a comment (R81). `cur` is the word so far, its
last character first. -/
def lineWords (cur : List Char) : List Char → List (List Char)
  | [] => if cur.isEmpty then [] else [cur.reverse]
  | c :: cs =>
    let done := if cur.isEmpty then [] else [cur.reverse]
    if c = ';' then done
    else if c = ',' then done ++ [','] :: lineWords [] cs
    else if c = ' ' ∨ c = '\t' then done ++ lineWords [] cs
    else lineWords (c :: cur) cs

/-- A command with one operand (R81). -/
def oneOperand (m : List Char) (n : Nat) : Option AsmCmd :=
  if m = ['L', 'O', 'O', 'K', 'U', 'P'] then some (.lookup n)
  else if m = ['R', 'E', 'A', 'D'] then some (.read n)
  else if m = ['R', 'E', 'C', 'O', 'N', 'F'] then some (.reconf n)
  else if m = ['S', 'T', 'A', 'T'] then some (.stat n)
  else none

/-- A command with a port, a comma and bytes (R81, R82). -/
def portAndBytes (m : List Char) (p : Nat) (bs : List Nat) : Option AsmCmd :=
  if m = ['R', 'X', 'S', 'E', 'Q'] then some (.rxseq p bs)
  else if m = ['W', 'F', 'R', 'A', 'M', 'E'] then some (.wframe p bs)
  else if m = ['R', 'F', 'R', 'A', 'M', 'E'] then some (.rframe p bs)
  else
    match bs with
    | [b] =>
      if m = ['R', 'X', 'B', 'Y', 'T', 'E'] then some (.rxbyte p b)
      else if m = ['R', 'X', 'B', 'R', 'K'] then some (.rxbrk p b)
      else none
    | _ => none

/-- The command the words of a line spell (R81, R82). -/
def parseWords : List (List Char) → Option AsmCmd
  | [m, a] =>
    match parseNumber a with
    | some n => oneOperand m n
    | none => none
  | m :: p :: [','] :: bs =>
    match parseNumber p, parseNumbers bs with
    | some p, some bs => portAndBytes m p bs
    | _, _ => none
  | _ => none

/-- `RXSEQ`: one `RXBYTE` per byte, in that order, with nothing between them (R82). -/
def rxSeq (p : Nat) (bs : List Byte) : List Instr := bs.map (fun b => .rxbyte (BitVec.ofNat 8 p) false b)

/-- The commands a well-formed line stands for (R81, R82); `WFRAME` and `RFRAME` take the identifier from the
configuration. -/
def expandCmd (c : Cfg) : AsmCmd → List Instr
  | .lookup b => [.lookup (BitVec.ofNat 32 b)]
  | .rxbyte p b => [.rxbyte (BitVec.ofNat 8 p) false (BitVec.ofNat 8 b)]
  | .read p => [.read (BitVec.ofNat 8 p)]
  | .reconf p => [.reconf (BitVec.ofNat 8 p)]
  | .stat p => [.stat (BitVec.ofNat 8 p)]
  | .rxbrk p b => [.rxbyte (BitVec.ofNat 8 p) true (BitVec.ofNat 8 b)]
  | .rxseq p bs => rxSeq p (bs.map (BitVec.ofNat 8))
  | .wframe p bs => rxSeq p (c.writeId :: bs.map (BitVec.ofNat 8))
  | .rframe p bs => rxSeq p (c.readId :: bs.map (BitVec.ofNat 8))

/-- The commands of a well-formed command, `none` for an ill-formed one. -/
def assembleCmd (c : Cfg) (a : AsmCmd) : Option (List Instr) :=
  if a.wellFormed then some (expandCmd c a) else none

/-- The commands one line of text stands for: none of them for a line of nothing but spaces and comment, and no answer
for a line that spells no well-formed command. -/
def assembleLine (c : Cfg) (line : List Char) : Option (List Instr) :=
  match lineWords [] line with
  | [] => some []
  | ws =>
    match parseWords ws with
    | some a => assembleCmd c a
    | none => none

/-- One upper-case hexadecimal digit. -/
def hexDigit (v : Nat) : Char := if v < 10 then Char.ofNat (48 + v) else Char.ofNat (55 + v)

/-- The last `n` hexadecimal digits of a number, most significant first. -/
def hexDigits : Nat → Nat → List Char
  | 0, _ => []
  | n + 1, v => hexDigits n (v / 16) ++ [hexDigit (v % 16)]

/-- The status names of R181. -/
def Status.name : Status → List Char
  | .ok => ['O', 'K']
  | .invalidPort => ['I', 'n', 'v', 'a', 'l', 'i', 'd', 'P', 'o', 'r', 't']
  | .unsupportedBaud => ['U', 'n', 's', 'u', 'p', 'p', 'o', 'r', 't', 'e', 'd', 'B', 'a', 'u', 'd']
  | .illegalCommand => ['I', 'l', 'l', 'e', 'g', 'a', 'l', 'C', 'o', 'm', 'm', 'a', 'n', 'd']

/-- A response as text, `status rdata` with sixteen hexadecimal digits (R78, R81). -/
def Response.text (r : Response) : List Char := r.status.name ++ ' ' :: '0' :: 'x' :: hexDigits 16 r.rdata.toNat

end Sys2Proof.Machine
end

