-- ==== Sys2Proof/Safety.lean ====
section
/-! DEFINITION. What claims speak of: the invariant of R35, the port a command names, sequences of commands, and what a
run of the block can show. -/

namespace Sys2Proof.Machine

/-- The next state of an outcome, if it is one. -/
def nextState? : Host.Outcome State Fault Refusal → Option State
  | .next s => some s
  | .fault _ => none
  | .refused _ => none

/-- The 8-bit port field that stands for a port. -/
def PortId.field : PortId → Byte
  | .p0 => 0#8
  | .p1 => 1#8
  | .p2 => 2#8

/-- The port a command names (R36); LOOKUP names none, and neither does a port field outside 0 to 2. -/
def namedPort : Instr → Option PortId
  | .lookup _ => none
  | .rxbyte p8 _ _ => portOf? p8
  | .read p8 => portOf? p8
  | .reconf p8 => portOf? p8
  | .stat p8 => portOf? p8

/-- A frame that can exist (R23): its identifier fixes its length, and it has `len - 1` payload bytes. -/
def RxFrame.Valid (c : Cfg) (f : RxFrame) : Prop :=
  ((f.id = c.writeId ∧ f.len = writeLen) ∨ (f.id = c.readId ∧ f.len = readLen)) ∧ f.payload.length + 1 = f.len

/-- The invariant of R35 for one port, with the canonical form of its buffer. -/
structure PortState.Inv (c : Cfg) (q : PortState) : Prop where
  /-- the buffer is in canonical form -/
  wf : q.acc.wf
  /-- the buffer has `CAP` bytes (R21) -/
  inBuffer : ∀ e ∈ q.acc, e.1 < c.cap
  /-- R35 item 1 -/
  curBound : q.cur < c.cap
  /-- R35 item 2: the bytes below the cursor hold values -/
  written : ∀ k < q.cur, ∃ b, q.acc.read k = some b
  /-- R35 item 3, write frame -/
  writeArmed : 1 ≤ q.cur → q.acc.read 0 = some c.writeId → q.cur ≤ 6
  /-- R35 item 3, read frame -/
  readArmed : 1 ≤ q.cur → q.acc.read 0 = some c.readId → q.cur ≤ 3
  /-- R35 item 4 -/
  slotValid : ∀ f, q.slot = some f → f.Valid c

/-- The invariant of R35: it holds of every port. -/
def State.Inv (s : State) : Prop := ∀ p, (s.port p).Inv s.cfg

/-- The commands of a list, one after the other with nothing between them; it stops where one stops. -/
def execAll : List Instr → State → Host.Outcome State Fault Refusal
  | [], s => .next s
  | i :: is, s =>
    match exec i s with
    | .next t => execAll is t
    | .fault f => .fault f
    | .refused r => .refused r

/-- `RXBYTE p` for each byte in turn (R82, `RXSEQ`). -/
def receiveAll (p : PortId) (bs : List Byte) : List Instr := bs.map (fun b => .rxbyte p.field false b)

/-- `OK` with the given `rdata`. -/
def okResponse (rdata : BitVec 64) : Response := { status := .ok, rdata := rdata }

end Sys2Proof.Machine
end

