-- ==== Sys2Proof/Certificates/Slice0/Obligations.lean ====
section
/-! DEFINITION. The statements. Every one of them holds for every configuration `s.cfg` that R8 admits, and, unless it
says so, for every state, reachable or not. -/

open Sys2Proof Sys2Proof.Machine

namespace Sys2Proof.Claims

/-- The ten rates of R101, in the order of their indices. -/
def rates : List (BitVec 32) :=
  [1200#32, 2400#32, 4800#32, 9600#32, 19200#32, 38400#32, 57600#32, 115200#32, 230400#32, 460800#32]

/-- One event more on a 32-bit counter that stays at `2^32 - 1` (R28, R29, R139). -/
def countOne (v : BitVec 32) : BitVec 32 := if v = 0xFFFFFFFF#32 then v else v + 1#32

/-- The state with one response more. -/
def answered (s : State) (status : Status) (rdata : BitVec 64) : State :=
  { s with rsps := s.rsps ++ [{ status := status, rdata := rdata }] }

/-- The words R76 calls illegal. -/
def IllegalWord (w : CmdWord) : Prop :=
  w.op = 0x00#8 ∨ 6 ≤ w.op.toNat ∨ (w.op = 0x01#8 ∧ w.port ≠ 0x00#8) ∨
  (w.op = 0x02#8 ∧ w.arg.extractLsb' 9 23 ≠ 0#23) ∨
  ((w.op = 0x03#8 ∨ w.op = 0x04#8 ∨ w.op = 0x05#8) ∧ w.arg ≠ 0#32)

/-- The seven bytes of a write frame, and the four of a read frame (R82, `WFRAME` and `RFRAME`). -/
def writeFrame (c : Cfg) (b1 b2 b3 b4 b5 b6 : Byte) : List Byte := [c.writeId, b1, b2, b3, b4, b5, b6]
def readFrame (c : Cfg) (b1 b2 b3 : Byte) : List Byte := [c.readId, b1, b2, b3]

end Sys2Proof.Claims

open Sys2Proof.Claims

/- Encoding. -/

/-- Words written out from R71 to R75 (and 95_test_vectors.md) decode to the commands they stand for, and three words
with a reserved field set, one with `op` 0 and one with `op` 6 are illegal. -/
def Obligations.TableWordsDecode : Prop :=
  decode 0x010000002580#48 = .command (.lookup 9600#32) ∧
  decode 0x0202000000DE#48 = .command (.rxbyte 2#8 false 0xDE#8) ∧
  decode 0x020000000152#48 = .command (.rxbyte 0#8 true 0x52#8) ∧
  decode 0x03C800000000#48 = .command (.read 200#8) ∧
  decode 0x040100000000#48 = .command (.reconf 1#8) ∧
  decode 0x050000000000#48 = .command (.stat 0#8) ∧
  decode 0x010100002580#48 = .illegal .reservedField ∧
  decode 0x020000000200#48 = .illegal .reservedField ∧
  decode 0x030000000001#48 = .illegal .reservedField ∧
  decode 0x000000000000#48 = .illegal .unknownOp ∧
  decode 0x060000000000#48 = .illegal .unknownOp

/-- Decoding the word of any command, every operand at every value, gives the command back (R71 to R75). -/
def Obligations.DecodeOfEncode : Prop := ∀ i : Instr, decode (encode i) = .command i

/-- A word that decodes is exactly the word of the command it decodes to: no bit of it is ignored (R75). -/
def Obligations.EncodeOfDecode : Prop := ∀ (w : CmdWord) (i : Instr), decode w = .command i → encode i = w

/-- "The rows are disjoint" (R75): no word is a command of two rows. -/
def Obligations.OpcodeRowsAreDisjoint : Prop :=
  ∀ (w : CmdWord) (r r' : OpRow), r.holds w = true → r'.holds w = true → r = r'

/-- R76: the words that decode to no command are exactly the illegal ones, and a step that meets one answers
`IllegalCommand` with `rdata = 0` and changes nothing else. -/
def Obligations.IllegalWordsAreAnswered : Prop :=
  (∀ w : CmdWord, (∃ e, decode w = .illegal e) ↔ IllegalWord w) ∧
  ∀ (s : State) (w : CmdWord) (rest : List CmdWord), s.cmds = w :: rest → IllegalWord w →
    step s = .next (answered { s with cmds := rest } .illegalCommand 0#64)

/-- The response word of R78 and the status codes of R181. -/
def Obligations.ResponseWordLayout : Prop :=
  ∀ r : Response, r.word.extractLsb' 64 8 = r.status.code ∧ r.word.extractLsb' 0 64 = r.rdata ∧
    r.status.code = (match r.status with
      | .ok => 0x00#8
      | .invalidPort => 0x01#8
      | .unsupportedBaud => 0x02#8
      | .illegalCommand => 0x03#8)

/-- `pack(f)` of R11, for every frame of at most seven bytes: the present flag, the zero bits, the length, and byte `k`
of the frame at bits 8k+7:8k, zero beyond the length. -/
def Obligations.FramePacking : Prop :=
  ∀ f : RxFrame, f.len ≤ 7 → f.payload.length + 1 = f.len →
    f.pack.getLsbD 63 = true ∧ f.pack.extractLsb' 60 3 = 0#3 ∧ (f.pack.extractLsb' 56 4).toNat = f.len ∧
    ∀ k, k < 7 → f.pack.extractLsb' (8 * k) 8 = (f.id :: f.payload).getD k 0#8

/- LOOKUP. -/

/-- R100 to R102: the `i`-th rate of R101 is answered with entry `i` of the table, every other operand with
`UnsupportedBaud` and `rdata = 0`; no state is written; a LOOKUP word with a non-zero port field is illegal. -/
def Obligations.LookupAnswers : Prop :=
  (∀ (s : State) (i : Fin 10) (baud : BitVec 32), rates[i.val]? = some baud →
    exec (.lookup baud) s =
      .next (answered s .ok (0#32 ++ s.cfg.rom[i].div ++ s.cfg.rom[i].mod1 ++ s.cfg.rom[i].mod2))) ∧
  (∀ (s : State) (baud : BitVec 32), baud ∉ rates → exec (.lookup baud) s = .next (answered s .unsupportedBaud 0#64)) ∧
  ∀ w : CmdWord, w.op = 0x01#8 → w.port ≠ 0#8 → ∃ e, decode w = .illegal e

/-- R103: LOOKUP's response is a function of its operand and the configuration alone, with `OK` exactly for the
supported rates, and it leaves all state unchanged. -/
def Obligations.LookupIsPure : Prop :=
  ∀ (baud : BitVec 32) (s s' : State), s.cfg = s'.cfg →
    ∃ e d, exec (.lookup baud) s = .next (answered s e d) ∧ exec (.lookup baud) s' = .next (answered s' e d) ∧
      (baud ∈ rates → e = .ok) ∧ (baud ∉ rates → e = .unsupportedBaud)

/- RXBYTE. -/

/-- R182: the four commands that name a port, with a port field of 3 to 255, answer `InvalidPort` and change no
state. -/
def Obligations.InvalidPortIsRefused : Prop :=
  ∀ (s : State) (p8 : Byte), 3 ≤ p8.toNat →
    (∀ brk b, exec (.rxbyte p8 brk b) s = .next (answered s .invalidPort 0#64)) ∧
    exec (.read p8) s = .next (answered s .invalidPort 0#64) ∧
    exec (.reconf p8) s = .next (answered s .invalidPort 0#64) ∧
    exec (.stat p8) s = .next (answered s .invalidPort 0#64)

/-- R126, with the effects of R128 and R129: the seventh byte of an accumulation that begins with `WRITE_ID` delivers
the 7-byte frame, also when it fills the buffer. -/
def Obligations.WriteFrameCompletes : Prop :=
  ∀ (s : State) (p : PortId) (brk : Bool) (b1 b2 b3 b4 b5 b : Byte),
    (s.port p).cur = 6 → (s.port p).acc.read 0 = some s.cfg.writeId →
    (s.port p).acc.read 1 = some b1 → (s.port p).acc.read 2 = some b2 → (s.port p).acc.read 3 = some b3 →
    (s.port p).acc.read 4 = some b4 → (s.port p).acc.read 5 = some b5 →
    exec (.rxbyte p.field brk b) s =
      .next (answered
        (s.setPort p
          { acc := (s.port p).acc.write 6 b
            cur := 0
            slot := some { id := s.cfg.writeId, len := 7, payload := [b1, b2, b3, b4, b5, b] }
            dropped := if (s.port p).slot = none then (s.port p).dropped else countOne (s.port p).dropped
            overlong := (s.port p).overlong })
        .ok (if (s.port p).slot = none then 1#64 else 3#64))

/-- R127, with the effects of R128 and R129: the fourth byte of an accumulation that begins with `READ_ID` delivers
the 4-byte frame. -/
def Obligations.ReadFrameCompletes : Prop :=
  ∀ (s : State) (p : PortId) (brk : Bool) (b1 b2 b : Byte),
    (s.port p).cur = 3 → (s.port p).acc.read 0 = some s.cfg.readId →
    (s.port p).acc.read 1 = some b1 → (s.port p).acc.read 2 = some b2 →
    exec (.rxbyte p.field brk b) s =
      .next (answered
        (s.setPort p
          { acc := (s.port p).acc.write 3 b
            cur := 0
            slot := some { id := s.cfg.readId, len := 4, payload := [b1, b2, b] }
            dropped := if (s.port p).slot = none then (s.port p).dropped else countOne (s.port p).dropped
            overlong := (s.port p).overlong })
        .ok (if (s.port p).slot = none then 1#64 else 3#64))

/-- R130 (the moment of the discard is the spec's decision D9): a byte that fills the buffer without completing a frame
discards everything accumulated, itself included, and is counted. -/
def Obligations.FullBufferIsDiscarded : Prop :=
  ∀ (s : State) (p : PortId) (brk : Bool) (b first : Byte),
    (s.port p).cur + 1 = s.cfg.cap → (s.port p).acc.read 0 = some first →
    ¬(s.cfg.cap = 7 ∧ first = s.cfg.writeId) →
    exec (.rxbyte p.field brk b) s =
      .next (answered
        (s.setPort p
          { acc := (s.port p).acc.write (s.port p).cur b
            cur := 0
            slot := (s.port p).slot
            dropped := (s.port p).dropped
            overlong := countOne (s.port p).overlong })
        .ok 4#64)

/-- R131 and R125: any other byte is appended and the cursor advances; nothing else changes. `first` is the first byte
after the append, which is the byte itself when the port was `Idle`. -/
def Obligations.OtherBytesAccumulate : Prop :=
  ∀ (s : State) (p : PortId) (brk : Bool) (b first : Byte),
    (s.port p).cur + 1 < s.cfg.cap →
    (if (s.port p).cur = 0 then some b else (s.port p).acc.read 0) = some first →
    ¬(first = s.cfg.writeId ∧ (s.port p).cur + 1 = 7) → ¬(first = s.cfg.readId ∧ (s.port p).cur + 1 = 4) →
    exec (.rxbyte p.field brk b) s =
      .next (answered
        (s.setPort p
          { acc := (s.port p).acc.write (s.port p).cur b
            cur := (s.port p).cur + 1
            slot := (s.port p).slot
            dropped := (s.port p).dropped
            overlong := (s.port p).overlong })
        .ok 0#64)

/-- R77 and R132: two RXBYTE words that differ in `arg[8]` alone do the same, on every port field, in every state. -/
def Obligations.BreakBitHasNoEffect : Prop :=
  ∀ (s : State) (rest : List CmdWord) (p8 b : Byte),
    step { s with cmds := CmdWord.ofFields 0x02#8 p8 (0#23 ++ 1#1 ++ b) :: rest } =
    step { s with cmds := CmdWord.ofFields 0x02#8 p8 (0#23 ++ 0#1 ++ b) :: rest }

/-- The frame of RXBYTE (R21, R50, R123): the byte at the cursor is the one received, every other byte of every buffer,
the other ports, the configuration and the commands still to come are unchanged, and one `OK` response is given. -/
def Obligations.RxbyteFrame : Prop :=
  ∀ (s t : State) (p : PortId) (brk : Bool) (b : Byte), exec (.rxbyte p.field brk b) s = .next t →
    (t.port p).acc.read (s.port p).cur = some b ∧
    (∀ k, k ≠ (s.port p).cur → (t.port p).acc.read k = (s.port p).acc.read k) ∧
    (∀ r, r ≠ p → t.port r = s.port r) ∧ t.cfg = s.cfg ∧ t.cmds = s.cmds ∧
    ∃ d, t.rsps = s.rsps ++ [okResponse d]

/-- R80 (derived there from R124 to R131) and R192: RXBYTE on a port that exists answers `OK` with one of four values,
and the port is `Idle` afterwards exactly when that value is not 0 (R133). -/
def Obligations.RxbyteResponseValues : Prop :=
  ∀ (s t : State) (p : PortId) (brk : Bool) (b : Byte), exec (.rxbyte p.field brk b) s = .next t →
    ∃ d : BitVec 64, t.rsps = s.rsps ++ [okResponse d] ∧ (d = 0#64 ∨ d = 1#64 ∨ d = 3#64 ∨ d = 4#64) ∧
      ((t.port p).phase = .idle ↔ d ≠ 0#64)

/-- R28, R29, R129, R130: a counter moves only in an RXBYTE on its port, by one, saturating, and exactly when the
response carries `drop` (bit 1), respectively `discard` (bit 2); `drop` is carried exactly when a frame completed
(`notify`, bit 0) while another was pending. -/
def Obligations.CountersFollowTheResponse : Prop :=
  ∀ (i : Instr) (s t : State) (r : Response) (p : PortId), exec i s = .next t → t.rsps = s.rsps ++ [r] →
    ((∃ brk b, i = .rxbyte p.field brk b) →
      (t.port p).dropped = (if r.rdata.getLsbD 1 then countOne (s.port p).dropped else (s.port p).dropped) ∧
      (t.port p).overlong = (if r.rdata.getLsbD 2 then countOne (s.port p).overlong else (s.port p).overlong) ∧
      r.rdata.getLsbD 1 = (r.rdata.getLsbD 0 && (s.port p).slot.isSome)) ∧
    ((∀ brk b, i ≠ .rxbyte p.field brk b) →
      (t.port p).dropped = (s.port p).dropped ∧ (t.port p).overlong = (s.port p).overlong)

/-- R28, R29 and item 5 of R35: no step decreases a counter. -/
def Obligations.CountersNeverDecrease : Prop :=
  ∀ (s t : State) (p : PortId), step s = .next t →
    (s.port p).dropped.toNat ≤ (t.port p).dropped.toNat ∧ (s.port p).overlong.toNat ≤ (t.port p).overlong.toNat

/-- When RXBYTE stops (log entries 6 and 7, the model's choice): the cursor is outside the buffer, the first byte
holds no value, or a byte of a frame that completes holds none. No state with the invariant of R35 is such. -/
def Obligations.RxbyteStopsOnlyOutsideTheInvariant : Prop :=
  (∀ (s : State) (p : PortId) (brk : Bool) (b : Byte), s.cfg.cap ≤ (s.port p).cur →
    exec (.rxbyte p.field brk b) s = .fault .accOutOfRange) ∧
  (∀ (s : State) (p : PortId) (brk : Bool) (b : Byte), (s.port p).cur < s.cfg.cap → (s.port p).cur ≠ 0 →
    (s.port p).acc.read 0 = none → exec (.rxbyte p.field brk b) s = .fault .accUnwritten) ∧
  ∀ (s : State) (i : Instr) (f : Fault), exec i s = .fault f → ¬ s.Inv

/- READ, RECONF, STAT. -/

/-- R135 and R136: a pending frame is answered and the slot emptied, nothing else of the port being touched; an empty
slot is answered with 0; a port field of 3 to 255 with `InvalidPort`; a READ word with a non-zero `arg` is illegal. -/
def Obligations.ReadCommand : Prop :=
  (∀ (s : State) (p : PortId) (f : RxFrame), (s.port p).slot = some f →
    exec (.read p.field) s =
      .next (answered
        (s.setPort p
          { acc := (s.port p).acc, cur := (s.port p).cur, slot := none,
            dropped := (s.port p).dropped, overlong := (s.port p).overlong })
        .ok f.pack)) ∧
  (∀ (s : State) (p : PortId), (s.port p).slot = none → exec (.read p.field) s = .next (answered s .ok 0#64)) ∧
  (∀ (s : State) (p8 : Byte), 3 ≤ p8.toNat → exec (.read p8) s = .next (answered s .invalidPort 0#64)) ∧
  ∀ w : CmdWord, w.op = 0x03#8 → w.arg ≠ 0#32 → ∃ e, decode w = .illegal e

/-- R137 and R56: two READs in a row return the frame once, then none. -/
def Obligations.ReadTwiceReturnsTheFrameOnce : Prop :=
  ∀ (s : State) (p : PortId) (f : RxFrame), (s.port p).slot = some f →
    ∃ t, execAll [.read p.field, .read p.field] s = .next t ∧
      t.rsps = s.rsps ++ [okResponse f.pack, okResponse 0#64] ∧ (t.port p).slot = none

/-- R160 and R161 (the spec's decision D13): the cursor and the slot are emptied, the counters and `acc` kept, other ports untouched; a port field
of 3 to 255 is answered `InvalidPort`; a RECONF word with a non-zero `arg` is illegal; RECONF is idempotent. -/
def Obligations.ReconfCommand : Prop :=
  (∀ (s : State) (p : PortId),
    exec (.reconf p.field) s =
      .next (answered
        (s.setPort p
          { acc := (s.port p).acc, cur := 0, slot := none,
            dropped := (s.port p).dropped, overlong := (s.port p).overlong })
        .ok 0#64)) ∧
  (∀ (s : State) (p8 : Byte), 3 ≤ p8.toNat → exec (.reconf p8) s = .next (answered s .invalidPort 0#64)) ∧
  (∀ w : CmdWord, w.op = 0x04#8 → w.arg ≠ 0#32 → ∃ e, decode w = .illegal e) ∧
  ∀ (s t u : State) (p r : PortId), exec (.reconf p.field) s = .next t → exec (.reconf p.field) t = .next u →
    u.port r = t.port r

/-- R163 and R164: both counters are answered and no state is written; a port field of 3 to 255 is answered
`InvalidPort`; a STAT word with a non-zero `arg` is illegal. -/
def Obligations.StatCommand : Prop :=
  (∀ (s : State) (p : PortId), ∃ d : BitVec 64, exec (.stat p.field) s = .next (answered s .ok d) ∧
    d.extractLsb' 0 32 = (s.port p).dropped ∧ d.extractLsb' 32 32 = (s.port p).overlong) ∧
  (∀ (s : State) (p8 : Byte), 3 ≤ p8.toNat → exec (.stat p8) s = .next (answered s .invalidPort 0#64)) ∧
  ∀ w : CmdWord, w.op = 0x05#8 → w.arg ≠ 0#32 → ∃ e, decode w = .illegal e

/-- The table of R31 for LOOKUP, READ, RECONF and STAT: no byte of any buffer and no counter changes; only RECONF
writes a cursor, only READ and RECONF a slot, and only those of the port named; configuration and commands to come are
kept. -/
def Obligations.MainlineCommandsFrame : Prop :=
  ∀ (i : Instr) (s t : State), (∀ p8 brk b, i ≠ .rxbyte p8 brk b) → exec i s = .next t →
    t.cfg = s.cfg ∧ t.cmds = s.cmds ∧
    ∀ p : PortId, (∀ k, (t.port p).acc.read k = (s.port p).acc.read k) ∧
      (t.port p).dropped = (s.port p).dropped ∧ (t.port p).overlong = (s.port p).overlong ∧
      (i ≠ .reconf p.field → (t.port p).cur = (s.port p).cur) ∧
      (i ≠ .reconf p.field → i ≠ .read p.field → (t.port p).slot = (s.port p).slot)

/- The step. -/

/-- R5, R60, R72: when the environment's next word decodes to a command, the step takes the word and executes that
command; when the environment offers none, the step changes nothing (the model's choice, log entry 4). -/
def Obligations.StepRunsTheDecodedCommand : Prop :=
  (∀ (s : State) (w : CmdWord) (rest : List CmdWord) (i : Instr), s.cmds = w :: rest → decode w = .command i →
    step s = exec i { s with cmds := rest }) ∧
  ∀ s : State, s.cmds = [] → step s = .next s

/-- R180 and R190: a step that answers with an error gives `rdata = 0` and changes nothing but the command taken and
the response given. -/
def Obligations.ErrorsChangeNoState : Prop :=
  ∀ (s t : State) (w : CmdWord) (rest : List CmdWord) (r : Response),
    s.cmds = w :: rest → step s = .next t → t.rsps = s.rsps ++ [r] → r.status ≠ .ok →
    r.rdata = 0#64 ∧ t = { s with cmds := rest, rsps := s.rsps ++ [r] }

/-- R37 (for every configuration, and for the reset state of the host): what reset leaves. -/
def Obligations.ResetValues : Prop :=
  (∀ (c : Cfg) (p : PortId),
    ((State.resetWith c).port p).cur = 0 ∧ ((State.resetWith c).port p).slot = none ∧
    ((State.resetWith c).port p).ready = false ∧ ((State.resetWith c).port p).slotLen = 0#4 ∧
    (∀ k, ((State.resetWith c).port p).slotDat k = 0#8) ∧
    ((State.resetWith c).port p).dropped = 0#32 ∧ ((State.resetWith c).port p).overlong = 0#32 ∧
    (∀ k, ((State.resetWith c).port p).acc.read k = none) ∧ (State.resetWith c).cfg = c) ∧
  ∃ c, State.reset = State.resetWith c

/-- R211 (derived there from R37): straight after reset, READ and STAT answer `OK` with 0 on every port. -/
def Obligations.FirstCommandsAfterReset : Prop :=
  ∀ (c : Cfg) (p : PortId),
    exec (.read p.field) (State.resetWith c) = .next (answered (State.resetWith c) .ok 0#64) ∧
    exec (.stat p.field) (State.resetWith c) = .next (answered (State.resetWith c) .ok 0#64)

/-- R35: the invariant holds after reset. -/
def Obligations.ResetMeetsTheInvariant : Prop := State.reset.Inv ∧ ∀ c : Cfg, (State.resetWith c).Inv

/-- R35: every step keeps the invariant (the cursor in range, bytes below it written, the armed lengths, valid frames
in the slots, the buffers in canonical form and inside `CAP`), and no step writes the configuration. -/
def Obligations.StepKeepsTheInvariant : Prop :=
  ∀ s t : State, s.Inv → step s = .next t → t.Inv ∧ t.cfg = s.cfg

/-- R223 (derived there): in every state that meets the invariant a step answers a next state, and a step that takes
a command gives exactly one response. -/
def Obligations.StepNeverStops : Prop :=
  ∀ s : State, s.Inv → ∃ t, step s = .next t ∧
    ∀ w rest, s.cmds = w :: rest → t.cmds = rest ∧ ∃ r, t.rsps = s.rsps ++ [r]

/-- R192 and R223: in every state that meets the invariant, every command completes, with one response more; a port
that exists is answered `OK`. -/
def Obligations.EveryCommandCompletes : Prop :=
  ∀ (i : Instr) (s : State), s.Inv → ∃ t r, exec i s = .next t ∧ t.rsps = s.rsps ++ [r] ∧
    ((namedPort i).isSome = true → r.status = .ok)

/- Ports. -/

/-- R36: a command that names port `p` reads and writes only the state indexed `p`. Run from two states that agree on
`p` and the configuration it does the same to `p` and gives the same response, and it leaves every other port alone.
LOOKUP reads only the configuration's table and leaves every port alone. -/
def Obligations.PortsDoNotInterfere : Prop :=
  (∀ (i : Instr) (p : PortId) (s s' t : State), namedPort i = some p → s'.cfg = s.cfg → s'.port p = s.port p →
    exec i s = .next t →
    (∀ r, r ≠ p → t.port r = s.port r) ∧
    ∃ t' x, exec i s' = .next t' ∧ t'.port p = t.port p ∧ (∀ r, r ≠ p → t'.port r = s'.port r) ∧
      t.rsps = s.rsps ++ [x] ∧ t'.rsps = s'.rsps ++ [x]) ∧
  ∀ (baud : BitVec 32) (s s' t : State), s'.cfg = s.cfg → exec (.lookup baud) s = .next t →
    (∀ r, t.port r = s.port r) ∧
    ∃ t' x, exec (.lookup baud) s' = .next t' ∧ t.rsps = s.rsps ++ [x] ∧ t'.rsps = s'.rsps ++ [x]

/-- R60: commands on different ports may be run in either order; every port ends the same, and the two responses are
the same two in the other order. -/
def Obligations.CommandsOnDifferentPortsCommute : Prop :=
  ∀ (i j : Instr) (p r : PortId) (s t : State), namedPort i = some p → namedPort j = some r → p ≠ r →
    execAll [i, j] s = .next t →
    ∃ t' x y, execAll [j, i] s = .next t' ∧ (∀ q, t'.port q = t.port q) ∧
      t.rsps = s.rsps ++ [x, y] ∧ t'.rsps = s.rsps ++ [y, x]

/-- R61: a READ and an RXBYTE presented together, with a frame pending and the RXBYTE completing another (its response
carries `notify` and `drop`, 3). READ first returns the older frame and no drop is counted; RXBYTE first counts a drop
and READ returns the newer frame. -/
def Obligations.ReadAgainstCompletionInBothOrders : Prop :=
  ∀ (s v : State) (p : PortId) (brk : Bool) (b : Byte) (f : RxFrame), (s.port p).slot = some f →
    exec (.rxbyte p.field brk b) s = .next v → v.rsps = s.rsps ++ [okResponse 3#64] →
    ∃ g t u, (v.port p).slot = some g ∧
      execAll [.read p.field, .rxbyte p.field brk b] s = .next t ∧
      t.rsps = s.rsps ++ [okResponse f.pack, okResponse 1#64] ∧
      (t.port p).dropped = (s.port p).dropped ∧ (t.port p).slot = some g ∧
      execAll [.rxbyte p.field brk b, .read p.field] s = .next u ∧
      u.rsps = s.rsps ++ [okResponse 3#64, okResponse g.pack] ∧
      (u.port p).dropped = countOne (s.port p).dropped ∧ (u.port p).slot = none

/- Sequences of commands. -/

/-- Property 9 of 95_test_vectors.md (from R160, R126, R135): from every state, RECONF, a write frame and READ on one
port answer exactly that frame, in arrival order; the counters do not move. -/
def Obligations.WriteFrameRoundTrip : Prop :=
  ∀ (s : State) (p : PortId) (b1 b2 b3 b4 b5 b6 : Byte),
    ∃ t, execAll (.reconf p.field :: receiveAll p (writeFrame s.cfg b1 b2 b3 b4 b5 b6) ++ [.read p.field]) s = .next t ∧
      t.rsps = s.rsps ++ List.replicate 7 (okResponse 0#64) ++
        [okResponse 1#64, okResponse (0x87#8 ++ b6 ++ b5 ++ b4 ++ b3 ++ b2 ++ b1 ++ s.cfg.writeId)] ∧
      (t.port p).cur = 0 ∧ (t.port p).slot = none ∧
      (t.port p).dropped = (s.port p).dropped ∧ (t.port p).overlong = (s.port p).overlong

/-- E4 of 95_test_vectors.md (from R127, R128, R135): from every state whose port is `Idle`, a read frame and READ answer
exactly that frame; a frame still pending is counted as dropped. -/
def Obligations.ReadFrameRoundTrip : Prop :=
  ∀ (s : State) (p : PortId) (b1 b2 b3 : Byte), (s.port p).cur = 0 →
    ∃ t, execAll (receiveAll p (readFrame s.cfg b1 b2 b3) ++ [.read p.field]) s = .next t ∧
      t.rsps = s.rsps ++ List.replicate 3 (okResponse 0#64) ++
        [okResponse (if (s.port p).slot = none then 1#64 else 3#64),
         okResponse (0x84#8 ++ 0#24 ++ b3 ++ b2 ++ b1 ++ s.cfg.readId)] ∧
      (t.port p).cur = 0 ∧ (t.port p).slot = none ∧
      (t.port p).dropped =
        (if (s.port p).slot = none then (s.port p).dropped else countOne (s.port p).dropped)

/-- R165: two write frames back to back with no READ between, from an `Idle` port with an empty slot: exactly the second
is retrievable, and the dropped-frame counter has gone up by one (below saturation), as STAT before and after shows. -/
def Obligations.SecondWriteFrameWins : Prop :=
  ∀ (s : State) (p : PortId) (a1 a2 a3 a4 a5 a6 c1 c2 c3 c4 c5 c6 : Byte),
    (s.port p).cur = 0 → (s.port p).slot = none → (s.port p).dropped.toNat < 2 ^ 32 - 1 →
    ∃ t, execAll (receiveAll p (writeFrame s.cfg a1 a2 a3 a4 a5 a6 ++ writeFrame s.cfg c1 c2 c3 c4 c5 c6)) s = .next t ∧
      (t.port p).slot = some { id := s.cfg.writeId, len := 7, payload := [c1, c2, c3, c4, c5, c6] } ∧
      (t.port p).dropped.toNat = (s.port p).dropped.toNat + 1 ∧ (t.port p).overlong = (s.port p).overlong ∧
      (∃ d d', exec (.stat p.field) s = .next (answered s .ok d) ∧ exec (.stat p.field) t = .next (answered t .ok d') ∧
        (d'.extractLsb' 0 32).toNat = (d.extractLsb' 0 32).toNat + 1 ∧ d'.extractLsb' 32 32 = d.extractLsb' 32 32) ∧
      ∃ u, execAll [.read p.field, .read p.field] t = .next u ∧
        u.rsps = t.rsps ++
          [okResponse (0x87#8 ++ c6 ++ c5 ++ c4 ++ c3 ++ c2 ++ c1 ++ s.cfg.writeId), okResponse 0#64]

/-- Item 3 of R134: an `Idle` port that receives a byte that is neither identifier swallows exactly `CAP` bytes, whatever
they are, and is `Idle` again, with one overlong event counted, no frame delivered, and every response 0 but the
last. -/
def Obligations.UnrecognisedByteSwallowsCapBytes : Prop :=
  ∀ (s : State) (p : PortId) (b : Byte) (bs : List Byte), (s.port p).cur = 0 →
    b ≠ s.cfg.writeId → b ≠ s.cfg.readId → bs.length + 1 = s.cfg.cap →
    ∃ t, execAll (receiveAll p (b :: bs)) s = .next t ∧ (t.port p).cur = 0 ∧
      (t.port p).slot = (s.port p).slot ∧ (t.port p).dropped = (s.port p).dropped ∧
      (t.port p).overlong = countOne (s.port p).overlong ∧
      t.rsps = s.rsps ++ List.replicate bs.length (okResponse 0#64) ++ [okResponse 4#64]

/-- R53: while an accumulation lasts, byte `k` of the buffer is the `k`-th byte received since the port was `Idle`. -/
def Obligations.BytesKeepArrivalOrder : Prop :=
  ∀ (s t : State) (p : PortId) (bs : List Byte), (s.port p).cur = 0 → execAll (receiveAll p bs) s = .next t →
    (t.port p).cur = bs.length → ∀ k, k < bs.length → (t.port p).acc.read k = bs[k]?

/- Registers and configuration. -/

/-- R22: the register form of the slot: all zero when it is empty, and for frames that can exist it says which frame
the slot holds. -/
def Obligations.SlotRegistersHoldTheSlot : Prop :=
  (∀ q : PortState, q.slot = none → q.ready = false ∧ q.slotLen = 0#4 ∧ ∀ k, q.slotDat k = 0#8) ∧
  ∀ (c : Cfg) (q q' : PortState), (∀ f, q.slot = some f → f.Valid c) → (∀ f, q'.slot = some f → f.Valid c) →
    q.ready = q'.ready → q.slotLen = q'.slotLen → (∀ k, k < 7 → q.slotDat k = q'.slotDat k) → q.slot = q'.slot

/-- R25: the cursor register has the least width that holds 0 to `CAP - 1`, and it holds the cursor of every state
that meets the invariant. -/
def Obligations.CursorFitsItsRegister : Prop :=
  (∀ c : Cfg, c.cap ≤ 2 ^ curWidth c ∧ 2 ^ (curWidth c - 1) < c.cap) ∧
  ∀ (s : State) (p : PortId), s.Inv → ((s.port p).curReg s.cfg).toNat = (s.port p).cur

/-- The last sentence of R8 and D30: a configuration is admitted exactly when its values fit their widths and meet the
two constraints, and the admitted one holds those values. -/
def Obligations.ConfigurationsAdmitted : Prop :=
  ∀ r : RawCfg,
    ((Config.accept r).isSome = true ↔
      r.writeId < 256 ∧ r.readId < 256 ∧ r.writeId ≠ r.readId ∧ 7 ≤ r.cap ∧ r.cap ≤ 255 ∧ r.rom.length = 10 ∧
      ∀ e ∈ r.rom, e.1 < 65536 ∧ e.2.1 < 256 ∧ e.2.2 < 256) ∧
    ∀ c, Config.accept r = some c → c.writeId.toNat = r.writeId ∧ c.readId.toNat = r.readId ∧ c.cap = r.cap ∧
      ∀ i : Fin 10, r.rom[i.val]? = some (c.rom[i].div.toNat, c.rom[i].mod1.toNat, c.rom[i].mod2.toNat)

/-- R82: the expansions of the pseudo-commands, for every configuration and every operand in range. -/
def Obligations.PseudoCommandsExpand : Prop :=
  ∀ (c : Cfg) (p b b1 b2 b3 b4 b5 b6 : Byte) (bs : List Byte), bs ≠ [] →
    assembleCmd c (.rxbrk p.toNat b.toNat) = some [.rxbyte p true b] ∧
    (encode (.rxbyte p true b)).arg.toNat = 0x100 + b.toNat ∧
    assembleCmd c (.rxseq p.toNat (bs.map BitVec.toNat)) = some (bs.map (fun x => .rxbyte p false x)) ∧
    assembleCmd c (.wframe p.toNat [b1.toNat, b2.toNat, b3.toNat, b4.toNat, b5.toNat, b6.toNat]) =
      some ([c.writeId, b1, b2, b3, b4, b5, b6].map (fun x => .rxbyte p false x)) ∧
    assembleCmd c (.rframe p.toNat [b1.toNat, b2.toNat, b3.toNat]) =
      some ([c.readId, b1, b2, b3].map (fun x => .rxbyte p false x))
end

