-- ==== Sys2Proof/Laws/Config.lean ====
section
/-! SUPPORT. What every configuration meets (R8). -/

namespace Sys2Proof

theorem Cfg.constraints (c : Cfg) : c.writeId ≠ c.readId ∧ 7 ≤ c.cap ∧ c.cap ≤ 255 := by
  have h := c.ok
  rw [CfgData.wellFormed, Bool.and_eq_true, Bool.and_eq_true, bne_iff_ne] at h
  exact ⟨h.1.1, of_decide_eq_true h.1.2, of_decide_eq_true h.2⟩

theorem Cfg.ids_ne (c : Cfg) : c.writeId ≠ c.readId := c.constraints.1
theorem Cfg.cap_ge (c : Cfg) : 7 ≤ c.cap := c.constraints.2.1
theorem Cfg.cap_le (c : Cfg) : c.cap ≤ 255 := c.constraints.2.2

end Sys2Proof
end

