-- ==== Sys2Proof/Laws/Decode.lean ====
section
/-! SUPPORT. The fields of a command word, and each row's match in terms of them (R71, R75). -/

namespace Sys2Proof

theorem toNat_append_eq {m n : Nat} (x : BitVec m) (y : BitVec n) : (x ++ y).toNat = x.toNat * 2 ^ n + y.toNat := by
  rw [BitVec.toNat_append, ← Nat.shiftLeft_add_eq_or_of_lt y.isLt, Nat.shiftLeft_eq]

/-- "As a number, cmd = op * 2^40 + port * 2^32 + arg" (R71). -/
theorem CmdWord.ofFields_toNat (o p : Byte) (a : BitVec 32) :
    (CmdWord.ofFields o p a).toNat = o.toNat * 2 ^ 40 + p.toNat * 2 ^ 32 + a.toNat := by
  have h : (CmdWord.ofFields o p a).toNat = (o ++ p ++ a).toNat := rfl
  rw [h, toNat_append_eq, toNat_append_eq]
  omega

theorem CmdWord.op_toNat (w : CmdWord) : w.op.toNat = w.toNat / 2 ^ 40 := by
  have := w.isLt
  rw [CmdWord.op, BitVec.extractLsb'_toNat, Nat.shiftRight_eq_div_pow]
  omega

theorem CmdWord.port_toNat (w : CmdWord) : w.port.toNat = w.toNat / 2 ^ 32 % 2 ^ 8 := by
  rw [CmdWord.port, BitVec.extractLsb'_toNat, Nat.shiftRight_eq_div_pow]

theorem CmdWord.arg_toNat (w : CmdWord) : w.arg.toNat = w.toNat % 2 ^ 32 := by
  rw [CmdWord.arg, BitVec.extractLsb'_toNat, Nat.shiftRight_eq_div_pow]
  omega

@[simp] theorem CmdWord.ofFields_op (o p : Byte) (a : BitVec 32) : (CmdWord.ofFields o p a).op = o := by
  apply BitVec.eq_of_toNat_eq
  have := p.isLt
  have := a.isLt
  rw [CmdWord.op_toNat, CmdWord.ofFields_toNat]
  omega

@[simp] theorem CmdWord.ofFields_port (o p : Byte) (a : BitVec 32) : (CmdWord.ofFields o p a).port = p := by
  apply BitVec.eq_of_toNat_eq
  have := p.isLt
  have := a.isLt
  rw [CmdWord.port_toNat, CmdWord.ofFields_toNat]
  omega

@[simp] theorem CmdWord.ofFields_arg (o p : Byte) (a : BitVec 32) : (CmdWord.ofFields o p a).arg = a := by
  apply BitVec.eq_of_toNat_eq
  have := a.isLt
  rw [CmdWord.arg_toNat, CmdWord.ofFields_toNat]
  omega

/-- A word is its three fields (R71). -/
theorem CmdWord.ofFields_eta (w : CmdWord) : CmdWord.ofFields w.op w.port w.arg = w := by
  apply BitVec.eq_of_toNat_eq
  rw [CmdWord.ofFields_toNat, CmdWord.op_toNat, CmdWord.port_toNat, CmdWord.arg_toNat]
  omega

theorem CmdWord.ofFields_inj {o p o' p' : Byte} {a a' : BitVec 32} :
    CmdWord.ofFields o p a = CmdWord.ofFields o' p' a' ↔ o = o' ∧ p = p' ∧ a = a' := by
  constructor
  · intro h
    have h1 := congrArg CmdWord.op h
    have h2 := congrArg CmdWord.port h
    have h3 := congrArg CmdWord.arg h
    simp only [CmdWord.ofFields_op, CmdWord.ofFields_port, CmdWord.ofFields_arg] at h1 h2 h3
    exact ⟨h1, h2, h3⟩
  · rintro ⟨rfl, rfl, rfl⟩; rfl

/-- A mask acts on each field by itself. -/
theorem CmdWord.ofFields_and (o p o' p' : Byte) (a a' : BitVec 32) :
    CmdWord.ofFields o p a &&& CmdWord.ofFields o' p' a' = CmdWord.ofFields (o &&& o') (p &&& p') (a &&& a') := by
  show (o ++ p ++ a) &&& (o' ++ p' ++ a') = (o &&& o') ++ (p &&& p') ++ (a &&& a')
  rw [BitVec.and_append, BitVec.and_append]

/- The mask column of R75, field by field. -/

theorem OpRow.holds_lookup (w : CmdWord) : OpRow.lookup.holds w = true ↔ w.op = 0x01#8 ∧ w.port = 0x00#8 := by
  have hm : OpRow.lookup.mask = CmdWord.ofFields 0xFF#8 0xFF#8 0#32 := by decide
  have hb : OpRow.lookup.bits = CmdWord.ofFields 0x01#8 0x00#8 0#32 := by decide
  have ones : ∀ x : Byte, x &&& 0xFF#8 = x := fun x => BitVec.and_allOnes
  rw [OpRow.holds, beq_iff_eq, hm, hb]
  conv => lhs; lhs; rw [← CmdWord.ofFields_eta w]
  rw [CmdWord.ofFields_and, CmdWord.ofFields_inj, ones, ones]
  simp

theorem OpRow.holds_rxbyte (w : CmdWord) :
    OpRow.rxbyte.holds w = true ↔ w.op = 0x02#8 ∧ w.arg &&& 0xFFFFFE00#32 = 0#32 := by
  have hm : OpRow.rxbyte.mask = CmdWord.ofFields 0xFF#8 0x00#8 0xFFFFFE00#32 := by decide
  have hb : OpRow.rxbyte.bits = CmdWord.ofFields 0x02#8 0x00#8 0#32 := by decide
  have ones : ∀ x : Byte, x &&& 0xFF#8 = x := fun x => BitVec.and_allOnes
  rw [OpRow.holds, beq_iff_eq, hm, hb]
  conv => lhs; lhs; rw [← CmdWord.ofFields_eta w]
  rw [CmdWord.ofFields_and, CmdWord.ofFields_inj, ones]
  simp

theorem OpRow.holds_port_only (r : OpRow) (o : Byte) (w : CmdWord)
    (hm : r.mask = CmdWord.ofFields 0xFF#8 0x00#8 0xFFFFFFFF#32) (hb : r.bits = CmdWord.ofFields o 0x00#8 0#32) :
    r.holds w = true ↔ w.op = o ∧ w.arg = 0#32 := by
  have ones : ∀ x : Byte, x &&& 0xFF#8 = x := fun x => BitVec.and_allOnes
  have ones' : ∀ x : BitVec 32, x &&& 0xFFFFFFFF#32 = x := fun x => BitVec.and_allOnes
  rw [OpRow.holds, beq_iff_eq, hm, hb]
  conv => lhs; lhs; rw [← CmdWord.ofFields_eta w]
  rw [CmdWord.ofFields_and, CmdWord.ofFields_inj, ones, ones']
  simp

theorem OpRow.holds_read (w : CmdWord) : OpRow.read.holds w = true ↔ w.op = 0x03#8 ∧ w.arg = 0#32 :=
  OpRow.holds_port_only .read 0x03#8 w (by decide) (by decide)

theorem OpRow.holds_reconf (w : CmdWord) : OpRow.reconf.holds w = true ↔ w.op = 0x04#8 ∧ w.arg = 0#32 :=
  OpRow.holds_port_only .reconf 0x04#8 w (by decide) (by decide)

theorem OpRow.holds_stat (w : CmdWord) : OpRow.stat.holds w = true ↔ w.op = 0x05#8 ∧ w.arg = 0#32 :=
  OpRow.holds_port_only .stat 0x05#8 w (by decide) (by decide)

/- The operand of RXBYTE (R74). -/

theorem rxArg_toNat (brk : Bool) (byte : Byte) : (rxArg brk byte).toNat = brk.toNat * 2 ^ 8 + byte.toNat := by
  have h : (rxArg brk byte).toNat = ((0 : BitVec 23) ++ BitVec.ofBool brk ++ byte).toNat := rfl
  rw [h, toNat_append_eq, toNat_append_eq, BitVec.toNat_ofBool]
  simp

theorem brkOf_eq (arg : BitVec 32) : brkOf arg = decide (arg.toNat / 2 ^ 8 % 2 = 1) :=
  Nat.testBit_eq_decide_div_mod_eq

theorem byteOf_toNat (arg : BitVec 32) : (byteOf arg).toNat = arg.toNat % 2 ^ 8 := by
  rw [byteOf, BitVec.extractLsb'_toNat, Nat.shiftRight_eq_div_pow]
  omega

@[simp] theorem brkOf_rxArg (brk : Bool) (byte : Byte) : brkOf (rxArg brk byte) = brk := by
  have := byte.isLt
  rw [brkOf_eq, rxArg_toNat]
  cases brk <;> simp <;> omega

@[simp] theorem byteOf_rxArg (brk : Bool) (byte : Byte) : byteOf (rxArg brk byte) = byte := by
  apply BitVec.eq_of_toNat_eq
  have := byte.isLt
  rw [byteOf_toNat, rxArg_toNat]
  omega

end Sys2Proof
end

