-- ==== Sys2Proof/Laws/State.lean ====
section
/-! SUPPORT. The small lemmas of State: what each update does to each field and to each port. -/

namespace Sys2Proof.Machine

/- Ports: reading back what was written, and what is kept. -/

@[simp] theorem State.port_setPort_same (s : State) (p : PortId) (q : PortState) : (s.setPort p q).port p = q := by
  cases p <;> rfl

theorem State.port_setPort_other (s : State) {p r : PortId} (q : PortState) (h : r ≠ p) :
    (s.setPort p q).port r = s.port r := by
  cases p <;> cases r <;> first | rfl | exact absurd rfl h

theorem State.port_setPort (s : State) (p r : PortId) (q : PortState) :
    (s.setPort p q).port r = if r = p then q else s.port r := by
  cases p <;> cases r <;> rfl

@[simp] theorem State.setPort_cfg (s : State) (p : PortId) (q : PortState) : (s.setPort p q).cfg = s.cfg := by
  cases p <;> rfl

@[simp] theorem State.setPort_cmds (s : State) (p : PortId) (q : PortState) : (s.setPort p q).cmds = s.cmds := by
  cases p <;> rfl

@[simp] theorem State.setPort_rsps (s : State) (p : PortId) (q : PortState) : (s.setPort p q).rsps = s.rsps := by
  cases p <;> rfl

/- Giving a response. -/

@[simp] theorem State.respond_cfg (s : State) (e : Status) (d : BitVec 64) : (s.respond e d).cfg = s.cfg := rfl
@[simp] theorem State.respond_port0 (s : State) (e : Status) (d : BitVec 64) : (s.respond e d).port0 = s.port0 := rfl
@[simp] theorem State.respond_port1 (s : State) (e : Status) (d : BitVec 64) : (s.respond e d).port1 = s.port1 := rfl
@[simp] theorem State.respond_port2 (s : State) (e : Status) (d : BitVec 64) : (s.respond e d).port2 = s.port2 := rfl
@[simp] theorem State.respond_cmds (s : State) (e : Status) (d : BitVec 64) : (s.respond e d).cmds = s.cmds := rfl
@[simp] theorem State.respond_rsps (s : State) (e : Status) (d : BitVec 64) :
    (s.respond e d).rsps = s.rsps ++ [{ status := e, rdata := d }] := rfl

@[simp] theorem State.respond_port (s : State) (e : Status) (d : BitVec 64) (p : PortId) :
    (s.respond e d).port p = s.port p := by cases p <;> rfl

/- Raising an error: the response of R190, and nothing else. -/

@[simp] theorem State.raise_cfg (s : State) (e : Status) : (s.raise e).cfg = s.cfg := rfl
@[simp] theorem State.raise_cmds (s : State) (e : Status) : (s.raise e).cmds = s.cmds := rfl
@[simp] theorem State.raise_rsps (s : State) (e : Status) :
    (s.raise e).rsps = s.rsps ++ [{ status := e, rdata := 0#64 }] := rfl
@[simp] theorem State.raise_port (s : State) (e : Status) (p : PortId) : (s.raise e).port p = s.port p := by
  cases p <;> rfl

/- The command source. -/

theorem State.takeCommand_nil {s : State} (h : s.cmds = []) : s.takeCommand = none := by
  unfold State.takeCommand; rw [h]

theorem State.takeCommand_cons {s : State} {w : CmdWord} {rest : List CmdWord} (h : s.cmds = w :: rest) :
    s.takeCommand = some (w, { s with cmds := rest }) := by
  unfold State.takeCommand; rw [h]

@[simp] theorem State.port_cmds (s : State) (l : List CmdWord) (p : PortId) :
    State.port { s with cmds := l } p = s.port p := by cases p <;> rfl

/-- Two states with the same fields, ports named by `PortId`, are the same state. -/
theorem State.ext_ports {s t : State} (hc : t.cfg = s.cfg) (hp : ∀ p, t.port p = s.port p)
    (hm : t.cmds = s.cmds) (hr : t.rsps = s.rsps) : t = s := by
  have h0 := hp .p0
  have h1 := hp .p1
  have h2 := hp .p2
  cases s; cases t
  simp only [State.port] at *
  subst hc h0 h1 h2 hm hr
  rfl

/- After reset. -/

@[simp] theorem State.resetWith_port (c : Cfg) (p : PortId) : (State.resetWith c).port p = PortState.reset := by
  cases p <;> rfl

/- Port fields. -/

@[simp] theorem portOf_field (p : PortId) : portOf? p.field = some p := by cases p <;> rfl

theorem portOf_eq_some {p8 : Byte} {p : PortId} (h : portOf? p8 = some p) : p8 = p.field := by
  unfold portOf? at h
  split at h
  · cases h; assumption
  · split at h
    · cases h; assumption
    · split at h
      · cases h; assumption
      · cases h

theorem portOf_eq_none {p8 : Byte} : portOf? p8 = none ↔ 3 ≤ p8.toNat := by
  unfold portOf?
  have e (n : Nat) (hn : n < 256) : p8 = BitVec.ofNat 8 n ↔ p8.toNat = n := by
    rw [← BitVec.toNat_inj, BitVec.toNat_ofNat, Nat.mod_eq_of_lt (by simpa using hn)]
  have e0 := e 0 (by decide)
  have e1 := e 1 (by decide)
  have e2 := e 2 (by decide)
  split
  · simp_all
  · split
    · simp_all
    · split
      · simp_all
      · simp_all; omega

end Sys2Proof.Machine
end

