-- ==== Sys2Proof/Laws/Memory.lean ====
section
/-! SUPPORT. The laws of one accumulation buffer: read after write, the canonical form, and the buffer's bounds. -/

namespace Sys2Proof.Machine

@[simp] theorem Memory.read_nil (a : Nat) : Memory.read [] a = none := rfl

/-- A read after a write to the same index gives the byte written. -/
@[simp] theorem Memory.read_write_same (m : Memory) (a : Nat) (b : Byte) : (m.write a b).read a = some b := by
  induction m with
  | nil => simp [Memory.write, Memory.read]
  | cons e rest ih =>
    obtain ⟨k, c⟩ := e
    unfold Memory.write
    by_cases h1 : a < k
    · simp [h1, Memory.read]
    · by_cases h2 : a = k
      · simp [h2, Memory.read]
      · simpa [h1, h2, Memory.read] using ih

/-- A write leaves every other index alone. -/
theorem Memory.read_write_other (m : Memory) {a x : Nat} (b : Byte) (h : x ≠ a) : (m.write a b).read x = m.read x := by
  induction m with
  | nil => simp [Memory.write, Memory.read, h]
  | cons e rest ih =>
    obtain ⟨k, c⟩ := e
    unfold Memory.write
    by_cases h1 : a < k
    · simp [h1, Memory.read, h]
    · by_cases h2 : a = k
      · simp [h2, Memory.read, h2 ▸ h]
      · simp [h1, h2, Memory.read, ih]

theorem Memory.read_write (m : Memory) (a x : Nat) (b : Byte) :
    (m.write a b).read x = if x = a then some b else m.read x := by
  by_cases h : x = a
  · simp [h]
  · simp [h, Memory.read_write_other m b h]

/-- Every entry of a written buffer is the written one or an old one. -/
theorem Memory.mem_write {m : Memory} {a : Nat} {b : Byte} {e : Host.Cell} (h : e ∈ m.write a b) : e = (a, b) ∨ e ∈ m := by
  induction m with
  | nil => simpa [Memory.write] using h
  | cons c rest ih =>
    obtain ⟨k, v⟩ := c
    unfold Memory.write at h
    split at h
    · simpa using h
    · split at h
      · simp only [List.mem_cons] at h ⊢
        exact h.elim .inl fun h => .inr (.inr h)
      · simp only [List.mem_cons] at h ⊢
        rcases h with h | h
        · exact .inr (.inl h)
        · rcases ih h with h | h
          · exact .inl h
          · exact .inr (.inr h)

/-- A write keeps the canonical form. -/
theorem Memory.write_wf {m : Memory} (a : Nat) (b : Byte) (h : m.wf) : (m.write a b).wf := by
  induction m with
  | nil => simp [Memory.write, Memory.wf]
  | cons c rest ih =>
    obtain ⟨k, v⟩ := c
    rw [Memory.wf, List.pairwise_cons] at h
    unfold Memory.write
    split
    · rename_i hlt
      rw [Memory.wf, List.pairwise_cons, List.pairwise_cons]
      refine ⟨fun e he => ?_, h⟩
      rcases List.mem_cons.1 he with rfl | he
      · exact hlt
      · exact Nat.lt_trans hlt (h.1 e he)
    · split
      · rename_i heq
        rw [Memory.wf, List.pairwise_cons]
        exact ⟨fun e he => heq ▸ h.1 e he, h.2⟩
      · rename_i hge hne
        rw [Memory.wf, List.pairwise_cons]
        refine ⟨fun e he => ?_, ih h.2⟩
        rcases Memory.mem_write he with rfl | he
        · show k < a
          omega
        · exact h.1 e he

/-- A write inside the buffer keeps every index inside the buffer. -/
theorem Memory.write_inBuffer {m : Memory} {n a : Nat} (b : Byte) (ha : a < n) (h : ∀ e ∈ m, e.1 < n) :
    ∀ e ∈ m.write a b, e.1 < n := by
  intro e he
  rcases Memory.mem_write he with rfl | he
  · exact ha
  · exact h e he

/-- Consecutive bytes are read when each one holds a value. -/
theorem Memory.readFrom_isSome {m : Memory} {a n : Nat} (h : ∀ k, k < n → ∃ b, m.read (a + k) = some b) :
    ∃ bs, m.readFrom a n = some bs ∧ bs.length = n := by
  induction n generalizing a with
  | zero => exact ⟨[], rfl, rfl⟩
  | succ n ih =>
    obtain ⟨b, hb⟩ := h 0 (by omega)
    obtain ⟨bs, hbs, hl⟩ := ih (a := a + 1) fun k hk => by
      obtain ⟨c, hc⟩ := h (k + 1) (by omega)
      exact ⟨c, by rw [← hc]; congr 1; omega⟩
    refine ⟨b :: bs, ?_, by simp [hl]⟩
    rw [Nat.add_zero] at hb
    simp [Memory.readFrom, hb, hbs]

/-- The bytes read are those of the buffer, in index order. -/
theorem Memory.readFrom_spec {m : Memory} {a n : Nat} {bs : List Byte} (h : m.readFrom a n = some bs) :
    bs.length = n ∧ ∀ k, k < n → m.read (a + k) = bs[k]? := by
  induction n generalizing a bs with
  | zero =>
    simp only [Memory.readFrom, Option.some.injEq] at h
    subst h
    exact ⟨rfl, fun k hk => absurd hk (Nat.not_lt_zero k)⟩
  | succ n ih =>
    unfold Memory.readFrom at h
    split at h
    · rename_i b cs hb hcs
      simp only [Option.some.injEq] at h
      subst h
      obtain ⟨hl, hk⟩ := ih hcs
      refine ⟨by simp [hl], fun k hlt => ?_⟩
      cases k with
      | zero => simpa using hb
      | succ k =>
        rw [List.getElem?_cons_succ, ← hk k (by omega)]
        congr 1
        omega
    · cases h

/-- What `frameOf?` answers: identifier at index 0, payload at the following indices, length `n`. -/
theorem frameOf_spec {acc : Memory} {n : Nat} {f : RxFrame} (h : frameOf? acc n = some f) :
    f.len = n ∧ f.payload.length + 1 = n ∧ acc.read 0 = some f.id ∧
      ∀ k, k + 1 < n → acc.read (k + 1) = f.payload[k]? := by
  unfold frameOf? at h
  split at h
  · rename_i id payload hr
    simp only [Option.some.injEq] at h
    subst h
    obtain ⟨hl, hk⟩ := Memory.readFrom_spec hr
    have hl' : payload.length + 1 = n := by simpa using hl
    refine ⟨rfl, hl', ?_, fun k hlt => ?_⟩
    · have := hk 0 (by omega)
      simpa using this
    · have := hk (k + 1) hlt
      simpa using this
  · cases h

/-- A frame is there when every one of its bytes holds a value. -/
theorem frameOf_isSome {acc : Memory} {n : Nat} (hn : 0 < n) (h : ∀ k, k < n → ∃ b, acc.read k = some b) :
    ∃ f, frameOf? acc n = some f := by
  obtain ⟨bs, hbs, hl⟩ := Memory.readFrom_isSome (m := acc) (a := 0) (n := n) fun k hk => by
    rw [Nat.zero_add]; exact h k hk
  cases bs with
  | nil => simp at hl; omega
  | cons b bs => exact ⟨_, by unfold frameOf?; rw [hbs]⟩

end Sys2Proof.Machine
end

