-- ==== Sys2Proof/Laws/PerInstr.lean ====
section
/-! SUPPORT. The statement made for every command: its word is in its own row of the opcode table. -/

namespace Sys2Proof.Laws.EncodedInItsRow

/-- The row of spec/opcode_table.json a command belongs to. -/
def rowOf : Instr → OpRow
  | .lookup _ => .lookup
  | .rxbyte _ _ _ => .rxbyte
  | .read _ => .read
  | .reconf _ => .reconf
  | .stat _ => .stat

/-- The word of a command meets `w AND mask == match` of its row (R75): opcode right, reserved fields zero. -/
def Statement (i : Instr) : Prop := (rowOf i).holds (encode i) = true

theorem lookup (baud : BitVec 32) : Statement (.lookup baud) := by
  unfold Statement
  rw [rowOf, OpRow.holds_lookup, encode, CmdWord.ofFields_op, CmdWord.ofFields_port]
  exact ⟨rfl, rfl⟩

theorem rxbyte (port : Byte) (brk : Bool) (byte : Byte) : Statement (.rxbyte port brk byte) := by
  unfold Statement
  rw [rowOf, OpRow.holds_rxbyte, encode, CmdWord.ofFields_op, CmdWord.ofFields_arg]
  have hz : (byte &&& 0x00#8) = 0#8 := BitVec.and_zero
  refine ⟨rfl, ?_⟩
  have hm : 0xFFFFFE00#32 = (0x7FFFFF#23 ++ 0#1 ++ 0x00#8 : BitVec 32) := by decide
  have hb : BitVec.ofBool brk &&& 0#1 = 0#1 := BitVec.and_zero
  rw [hm]
  show ((0 : BitVec 23) ++ BitVec.ofBool brk ++ byte) &&& (0x7FFFFF#23 ++ 0#1 ++ 0x00#8) = 0#32
  rw [BitVec.and_append, BitVec.and_append, hz, hb]
  decide

theorem read (port : Byte) : Statement (.read port) := by
  unfold Statement
  rw [rowOf, OpRow.holds_read, encode, CmdWord.ofFields_op, CmdWord.ofFields_arg]
  exact ⟨rfl, rfl⟩

theorem reconf (port : Byte) : Statement (.reconf port) := by
  unfold Statement
  rw [rowOf, OpRow.holds_reconf, encode, CmdWord.ofFields_op, CmdWord.ofFields_arg]
  exact ⟨rfl, rfl⟩

theorem stat (port : Byte) : Statement (.stat port) := by
  unfold Statement
  rw [rowOf, OpRow.holds_stat, encode, CmdWord.ofFields_op, CmdWord.ofFields_arg]
  exact ⟨rfl, rfl⟩

end Sys2Proof.Laws.EncodedInItsRow
end

