-- ==== Sys2Proof/Laws/Receiver.lean ====
section
/-! SUPPORT. What one receive-interrupt invocation can do, said once (R133), and the specification lemma of each
command's meaning. -/

namespace Sys2Proof.Machine

/- The bits of an RXBYTE response (R79). -/

@[simp] theorem RxFlags.rdata_notify (f : RxFlags) : f.rdata[0] = f.notify := by
  rcases f with ⟨a, b, c⟩; cases a <;> cases b <;> cases c <;> decide

@[simp] theorem RxFlags.rdata_drop (f : RxFlags) : f.rdata[1] = f.drop := by
  rcases f with ⟨a, b, c⟩; cases a <;> cases b <;> cases c <;> decide

@[simp] theorem RxFlags.rdata_discard (f : RxFlags) : f.rdata[2] = f.discard := by
  rcases f with ⟨a, b, c⟩; cases a <;> cases b <;> cases c <;> decide

/-- The response of a completion: 1, or 3 when a frame was pending. -/
theorem RxFlags.rdata_complete (q : PortState) :
    RxFlags.rdata { notify := true, drop := q.ready, discard := false } = if q.slot = none then 1#64 else 3#64 := by
  unfold PortState.ready
  cases q.slot <;> simp <;> decide

/-- The inversion of `PortState.complete`: the frame, and everything else it writes. -/
theorem PortState.complete_cases {q q' : PortState} {acc : Memory} {n : Nat} {fl : RxFlags}
    (h : q.complete acc n = .ok (q', fl)) :
    ∃ f, frameOf? acc n = some f ∧
      q' = { acc := acc, cur := 0, slot := some f,
             dropped := if q.ready then satInc q.dropped else q.dropped, overlong := q.overlong } ∧
      fl = { notify := true, drop := q.ready, discard := false } := by
  unfold PortState.complete at h
  split at h
  · cases h
  · rename_i f hf
    simp only [Except.ok.injEq, Prod.mk.injEq] at h
    exact ⟨f, hf, h.1.symm, h.2.symm⟩

/-- The four rows of R133, as the only ways an invocation can answer. -/
theorem PortState.receive_cases {c : Cfg} {q q' : PortState} {b : Byte} {fl : RxFlags}
    (h : q.receive c b = .ok (q', fl)) :
    q.cur < c.cap ∧ ∃ first, (q.acc.write q.cur b).read 0 = some first ∧
      ((q.cur + 1 = writeLen ∧ first = c.writeId ∧ q.complete (q.acc.write q.cur b) writeLen = .ok (q', fl)) ∨
       (q.cur + 1 = readLen ∧ first = c.readId ∧ q.complete (q.acc.write q.cur b) readLen = .ok (q', fl)) ∨
       (¬(q.cur + 1 = writeLen ∧ first = c.writeId) ∧ ¬(q.cur + 1 = readLen ∧ first = c.readId) ∧
         q.cur + 1 = c.cap ∧ (q', fl) = q.discard (q.acc.write q.cur b)) ∨
       (¬(q.cur + 1 = writeLen ∧ first = c.writeId) ∧ ¬(q.cur + 1 = readLen ∧ first = c.readId) ∧
         q.cur + 1 ≠ c.cap ∧ (q', fl) = q.advance (q.acc.write q.cur b) (q.cur + 1))) := by
  unfold PortState.receive at h
  split at h
  · rename_i hlt
    refine ⟨hlt, ?_⟩
    dsimp only at h
    split at h
    · cases h
    · rename_i first hf
      refine ⟨first, hf, ?_⟩
      split at h
      · rename_i hw
        exact .inl ⟨hw.1, hw.2, h⟩
      · rename_i hw
        split at h
        · rename_i hr
          exact .inr (.inl ⟨hr.1, hr.2, h⟩)
        · rename_i hr
          split at h
          · rename_i hc
            exact .inr (.inr (.inl ⟨hw, hr, hc, (Except.ok.inj h).symm⟩))
          · rename_i hc
            exact .inr (.inr (.inr ⟨hw, hr, hc, (Except.ok.inj h).symm⟩))
  · cases h

/-- An invocation whose append is in range and whose first byte holds a value makes the tests of R124. -/
theorem PortState.receive_of_first {c : Cfg} {q : PortState} {b first : Byte} (hc : q.cur < c.cap)
    (hf : (q.acc.write q.cur b).read 0 = some first) :
    q.receive c b =
      if q.cur + 1 = writeLen ∧ first = c.writeId then q.complete (q.acc.write q.cur b) writeLen
      else if q.cur + 1 = readLen ∧ first = c.readId then q.complete (q.acc.write q.cur b) readLen
      else if q.cur + 1 = c.cap then .ok (q.discard (q.acc.write q.cur b))
      else .ok (q.advance (q.acc.write q.cur b) (q.cur + 1)) := by
  unfold PortState.receive
  rw [if_pos hc]
  simp only [hf]

/-- The first byte after the append (R125). -/
theorem PortState.first_after_write (q : PortState) (b : Byte) :
    (q.acc.write q.cur b).read 0 = if q.cur = 0 then some b else q.acc.read 0 := by
  rw [Memory.read_write]
  by_cases h : q.cur = 0
  · simp [h]
  · rw [if_neg h, if_neg (Ne.symm h)]

/-- Every invocation that answers has written the byte at the cursor and no other byte (R123). -/
theorem PortState.receive_acc {c : Cfg} {q q' : PortState} {b : Byte} {fl : RxFlags}
    (h : q.receive c b = .ok (q', fl)) : q'.acc = q.acc.write q.cur b := by
  obtain ⟨_, first, _, ⟨_, _, hc⟩ | ⟨_, _, hc⟩ | ⟨_, _, _, hc⟩ | ⟨_, _, _, hc⟩⟩ := PortState.receive_cases h
  · obtain ⟨f, _, rfl, _⟩ := PortState.complete_cases hc; rfl
  · obtain ⟨f, _, rfl, _⟩ := PortState.complete_cases hc; rfl
  · cases hc; rfl
  · cases hc; rfl

/-- RXBYTE with a port that exists, when its invocation answers. -/
theorem execRxbyte_of_ok {s : State} {p8 : Byte} {p : PortId} (brk : Bool) {b : Byte} {q : PortState} {fl : RxFlags}
    (hp : portOf? p8 = some p) (h : (s.port p).receive s.cfg b = .ok (q, fl)) :
    execRxbyte p8 brk b s = .next ((s.setPort p q).respond .ok fl.rdata) := by
  unfold execRxbyte; rw [hp]; simp only; rw [h]

/-- The inversion of RXBYTE: the error of R122, or one invocation. -/
theorem execRxbyte_cases {s t : State} {p8 : Byte} (brk : Bool) {b : Byte} (h : execRxbyte p8 brk b s = .next t) :
    (portOf? p8 = none ∧ t = s.raise .invalidPort) ∨
    ∃ p q fl, portOf? p8 = some p ∧ (s.port p).receive s.cfg b = .ok (q, fl) ∧
      t = (s.setPort p q).respond .ok fl.rdata := by
  unfold execRxbyte at h
  split at h
  · rename_i hp
    exact .inl ⟨hp, (Host.Outcome.next.inj h).symm⟩
  · rename_i p hp
    split at h
    · cases h
    · rename_i q fl hr
      exact .inr ⟨p, q, fl, hp, hr, (Host.Outcome.next.inj h).symm⟩

/-- The inversion of READ. -/
theorem execRead_cases {s t : State} {p8 : Byte} (h : execRead p8 s = .next t) :
    (portOf? p8 = none ∧ t = s.raise .invalidPort) ∨
    (∃ p f, portOf? p8 = some p ∧ (s.port p).slot = some f ∧
      t = (s.setPort p { s.port p with slot := none }).respond .ok f.pack) ∨
    ∃ p, portOf? p8 = some p ∧ (s.port p).slot = none ∧ t = s.respond .ok 0#64 := by
  unfold execRead at h
  split at h
  · rename_i hp
    exact .inl ⟨hp, (Host.Outcome.next.inj h).symm⟩
  · rename_i p hp
    split at h
    · rename_i f hf
      exact .inr (.inl ⟨p, f, hp, hf, (Host.Outcome.next.inj h).symm⟩)
    · rename_i hf
      exact .inr (.inr ⟨p, hp, hf, (Host.Outcome.next.inj h).symm⟩)

/-- The inversion of RECONF. -/
theorem execReconf_cases {s t : State} {p8 : Byte} (h : execReconf p8 s = .next t) :
    (portOf? p8 = none ∧ t = s.raise .invalidPort) ∨
    ∃ p, portOf? p8 = some p ∧ t = (s.setPort p { s.port p with cur := 0, slot := none }).respond .ok 0#64 := by
  unfold execReconf at h
  split at h
  · rename_i hp
    exact .inl ⟨hp, (Host.Outcome.next.inj h).symm⟩
  · rename_i p hp
    exact .inr ⟨p, hp, (Host.Outcome.next.inj h).symm⟩

/-- The inversion of STAT. -/
theorem execStat_cases {s t : State} {p8 : Byte} (h : execStat p8 s = .next t) :
    (portOf? p8 = none ∧ t = s.raise .invalidPort) ∨
    ∃ p, portOf? p8 = some p ∧ t = s.respond .ok (statRdata (s.port p).dropped (s.port p).overlong) := by
  unfold execStat at h
  split at h
  · rename_i hp
    exact .inl ⟨hp, (Host.Outcome.next.inj h).symm⟩
  · rename_i p hp
    exact .inr ⟨p, hp, (Host.Outcome.next.inj h).symm⟩

/-- The inversion of LOOKUP. -/
theorem execLookup_cases {s t : State} {baud : BitVec 32} (h : execLookup baud s = .next t) :
    (baudIndex baud = none ∧ t = s.raise .unsupportedBaud) ∨
    ∃ i, baudIndex baud = some i ∧ t = s.respond .ok (lookupRdata s.cfg.rom[i]) := by
  unfold execLookup at h
  split at h
  · rename_i hi
    exact .inl ⟨hi, (Host.Outcome.next.inj h).symm⟩
  · rename_i i hi
    exact .inr ⟨i, hi, (Host.Outcome.next.inj h).symm⟩

/-- The inversion of a step: idle, an illegal word, or the execution of one command. -/
theorem step_cases {s t : State} (h : step s = .next t) :
    (s.cmds = [] ∧ t = s) ∨
    ∃ w rest, s.cmds = w :: rest ∧
      ((∃ e, decode w = .illegal e ∧ t = State.answerIllegal { s with cmds := rest }) ∨
       ∃ i, decode w = .command i ∧ exec i { s with cmds := rest } = .next t) := by
  unfold step at h
  cases hc : s.cmds with
  | nil =>
    rw [State.takeCommand_nil hc] at h
    exact .inl ⟨rfl, (Host.Outcome.next.inj h).symm⟩
  | cons w rest =>
    rw [State.takeCommand_cons hc] at h
    refine .inr ⟨w, rest, rfl, ?_⟩
    simp only at h
    split at h
    · rename_i i hi
      exact .inr ⟨i, hi, h⟩
    · rename_i e he
      exact .inl ⟨e, he, (Host.Outcome.next.inj h).symm⟩

end Sys2Proof.Machine
end

