-- ==== Sys2Proof/Tests/Slice0.lean ====
section
/-! SUPPORT. Tests: expected values are those of spec/30_encoding.md and spec/95_test_vectors.md (the source of each is
named), and a witness for the hypotheses of each statement. -/

open Sys2Proof Sys2Proof.Machine Sys2Proof.Claims

namespace Sys2Proof.Tests

/- Configurations of 95_test_vectors.md; none is the hardware's (R9). -/

/-- ROM_EX (93_implementation_defined.md G1). -/
def romEx : Vector TimingParams 10 :=
  #v[⟨1665, 11, 0⟩, ⟨832, 14, 0⟩, ⟨416, 7, 0⟩, ⟨208, 3, 0⟩, ⟨104, 2, 0⟩,
     ⟨52, 1, 0⟩, ⟨34, 11, 0⟩, ⟨17, 6, 0⟩, ⟨8, 11, 0⟩, ⟨4, 5, 0⟩]

def cfgT : Cfg := ⟨{ writeId := 0x57#8, readId := 0x52#8, cap := 8, rom := romEx }, by decide⟩
def cfg7 : Cfg := ⟨{ writeId := 0x57#8, readId := 0x52#8, cap := 7, rom := romEx }, by decide⟩

/-- `CFG_T` as numbers, for the admission of configurations. -/
def rawT : RawCfg :=
  { writeId := 0x57, readId := 0x52, cap := 8,
    rom := [(1665, 11, 0), (832, 14, 0), (416, 7, 0), (208, 3, 0), (104, 2, 0),
            (52, 1, 0), (34, 11, 0), (17, 6, 0), (8, 11, 0), (4, 5, 0)] }

/- States. -/

/-- Everything as at reset but port 0. -/
def at0 (c : Cfg) (q : PortState) : State := { State.resetWith c with port0 := q }

def idle : PortState := PortState.reset
def frame123 : RxFrame := { id := 0x52#8, len := 4, payload := [1#8, 2#8, 3#8] }
def full : PortState := { idle with slot := some frame123 }

/-- Start state of programs 4a and 4b. -/
def aboutToRead : PortState := { full with cur := 3, acc := [(0, 0x52#8), (1, 0x11#8), (2, 0x12#8)] }

def aboutToWrite : PortState :=
  { idle with cur := 6, acc := [(0, 0x57#8), (1, 1#8), (2, 2#8), (3, 3#8), (4, 4#8), (5, 5#8)] }

/-- `n` bytes 0xFF received. -/
def garbage (n : Nat) : PortState := { idle with cur := n, acc := (List.range n).map (fun k => (k, 0xFF#8)) }

def rsps (o : Host.Outcome State Fault Refusal) : Option (List Response) := (nextState? o).map (·.rsps)
def port0 (o : Host.Outcome State Fault Refusal) : Option PortState := (nextState? o).map (·.port0)

/- The check on written commands: one ill-formed term for each test it makes (R81, R82). -/

theorem test_ill_formed_baud : AsmCmd.wellFormed (.lookup 4294967296) = false := by decide
theorem test_ill_formed_port : AsmCmd.wellFormed (.read 256) = false := by decide
theorem test_ill_formed_byte : AsmCmd.wellFormed (.rxbyte 0 256) = false := by decide
theorem test_ill_formed_rxseq : AsmCmd.wellFormed (.rxseq 0 []) = false := by decide
theorem test_ill_formed_wframe : AsmCmd.wellFormed (.wframe 0 [1, 2, 3, 4, 5]) = false := by decide
theorem test_ill_formed_rframe : AsmCmd.wellFormed (.rframe 0 [1, 2, 3, 4]) = false := by decide
theorem test_well_formed_bounds : AsmCmd.wellFormed (.lookup 4294967295) = true ∧
    AsmCmd.wellFormed (.rxbyte 255 255) = true := by decide

/- Decoding: words written out from R75, `op port arg` (vectors: sections 2.1 to 2.4). -/

theorem test_decode_lookup :
    decode (0b00000001_00000000_00000000000000000010010110000000#48) = .command (.lookup 9600#32) := by decide
theorem test_decode_rxbyte :
    decode (0b00000010_00000010_00000000000000000000000011011110#48) = .command (.rxbyte 2#8 false 0xDE#8) := by decide
theorem test_decode_rxbrk :
    decode (0b00000010_00000000_00000000000000000000000101010010#48) = .command (.rxbyte 0#8 true 0x52#8) := by decide
theorem test_decode_read :
    decode (0b00000011_11001000_00000000000000000000000000000000#48) = .command (.read 200#8) := by decide
theorem test_decode_reconf :
    decode (0b00000100_00000001_00000000000000000000000000000000#48) = .command (.reconf 1#8) := by decide
theorem test_decode_stat :
    decode (0b00000101_00000100_00000000000000000000000000000000#48) = .command (.stat 4#8) := by decide
theorem test_decode_reserved : decode 0x02FF00000200#48 = .illegal .reservedField ∧
    decode 0x0102000004B0#48 = .illegal .reservedField ∧ decode 0x040000000100#48 = .illegal .reservedField := by decide
theorem test_decode_unknown : decode 0#48 = .illegal .unknownOp ∧ decode 0xFFFFFFFFFFFF#48 = .illegal .unknownOp := by
  decide
theorem test_encode : encode (.rxbyte 0#8 true 0xFF#8) = 0x0200000001FF#48 ∧ encode (.lookup 460800#32) = 0x010000070800#48 ∧
    encode (.stat 1#8) = 0x050100000000#48 := by decide

/- One step each. -/

/-- Section 2.1, row 4. -/
theorem test_lookup_9600 : rsps (exec (.lookup 9600#32) (State.resetWith cfgT)) = some [okResponse 0x0000000000D00300#64] := by
  decide
/-- Section 2.1, second table, row 20: 9600 in the low bits only. -/
theorem test_lookup_low_bits : rsps (exec (.lookup 0x00012580#32) (State.resetWith cfgT)) =
    some [{ status := .unsupportedBaud, rdata := 0#64 }] := by decide
/-- Program 4b, row 1: completion over a pending frame. -/
theorem test_rxbyte_drops : (port0 (exec (.rxbyte 0#8 false 0x13#8) (at0 cfgT aboutToRead))).map
    (fun q => (q.cur, q.slot, q.dropped)) = some (0, some ⟨0x52#8, 4, [0x11#8, 0x12#8, 0x13#8]⟩, 1#32) := by decide
/-- V18, row 7: with CAP = 7 the frame that fills the buffer completes. -/
theorem test_rxbyte_cap7 : rsps (exec (.rxbyte 0#8 false 0x06#8) (at0 cfg7 aboutToWrite)) = some [okResponse 1#64] := by
  decide
/-- V1, row 8. -/
theorem test_read_pack : rsps (exec (.read 0#8) (at0 cfgT { idle with slot := some ⟨0x57#8, 7, [1#8, 2#8, 3#8, 4#8, 5#8, 6#8]⟩ })) =
    some [okResponse 0x8706050403020157#64] := by decide
/-- Section 2.4, row 4. -/
theorem test_read_bad_port : rsps (exec (.read 200#8) (at0 cfgT full)) = some [{ status := .invalidPort, rdata := 0#64 }] := by
  decide
/-- V14, row 9: the accumulation and the pending frame go, the bytes stay. -/
theorem test_reconf : port0 (exec (.reconf 0#8) (at0 cfgT aboutToRead)) =
    some { aboutToRead with cur := 0, slot := none } := by decide
/-- V16, row 1. -/
theorem test_stat : rsps (exec (.stat 0#8) (at0 cfgT { idle with dropped := 1#32, overlong := 2#32 })) =
    some [okResponse 0x0000000200000001#64] := by decide
/-- V17, rows 5 and 10: saturation. -/
theorem test_saturation : satInc 0xFFFFFFFE#32 = 0xFFFFFFFF#32 ∧ satInc 0xFFFFFFFF#32 = 0xFFFFFFFF#32 := by decide
/-- Section 2.4, row 16: illegal before invalid port. -/
theorem test_illegal_first : rsps (step ((State.resetWith cfgT).withFetchWord 48 0x03FF00000001)) =
    some [{ status := .illegalCommand, rdata := 0#64 }] := by decide
/-- R78, with the response word of section 2.4, row 1. -/
theorem test_response_word : ({ status := .invalidPort, rdata := 0#64 } : Response).word = 0x010000000000000000#72 := by decide
/-- The first step after reset runs the word presented, whatever the configuration. -/
theorem test_first_step : (nextState? (step (State.reset.withFetchWord 48 0x020000000057))).isSome = true ∧
    (nextState? (step (State.reset.withFetchWord 48 0x0100000004B0))).isSome = true := by decide
/-- R8, D30. -/
theorem test_admit : (Config.accept rawT).map (fun c => (c.writeId, c.cap, c.rom[3])) = some (0x57#8, 8, ⟨208, 3, 0⟩) ∧
    (Config.accept { rawT with cap := 6 }) = none ∧ (Config.accept { rawT with readId := 0x57 }) = none := by decide
/-- The text of R81 and V19 (row 20), and a line of R82. -/
theorem test_text :
    assembleLine cfgT ['L', 'O', 'O', 'K', 'U', 'P', ' ', '9', '6', '0', '0', ' ', ';', 'x'] = some [.lookup 9600#32] ∧
    assembleLine cfgT ['R', 'X', 'B', 'R', 'K', ' ', '0', ',', ' ', '0', 'x', '5', '2'] = some [.rxbyte 0#8 true 0x52#8] ∧
    assembleLine cfgT ['R', 'F', 'R', 'A', 'M', 'E', ' ', '2', ',', ' ', '1', ' ', '2', ' ', '3'] =
      some [.rxbyte 2#8 false 0x52#8, .rxbyte 2#8 false 1#8, .rxbyte 2#8 false 2#8, .rxbyte 2#8 false 3#8] := by decide
theorem test_response_text : (okResponse 0xA121B#64).text =
    ['O', 'K', ' ', '0', 'x', '0', '0', '0', '0', '0', '0', '0', '0', '0', '0', '0', 'A', '1', '2', '1', 'B'] := by decide

/- Witnesses: states and operands that meet the hypotheses of each statement. -/

theorem witness_EncodeOfDecode : decode 0x0200000001FF#48 = .command (.rxbyte 0#8 true 0xFF#8) := by decide
theorem witness_OpcodeRowsAreDisjoint : OpRow.read.holds 0x03FF00000000#48 = true := by decide

/-- Every clause of R76's words, at the ends of its range. -/
theorem witness_IllegalWordsAreAnswered :
    (∃ s : State, s.cmds = [0x000000000000#48] ∧ IllegalWord 0x000000000000#48) ∧
    IllegalWord 0x060000000000#48 ∧ IllegalWord 0xFF0000000000#48 ∧ IllegalWord 0x010100000000#48 ∧
    IllegalWord 0x020000000200#48 ∧ IllegalWord 0x020080000000#48 ∧ IllegalWord 0x030000000001#48 ∧
    IllegalWord 0x040080000000#48 ∧ IllegalWord 0x050000000001#48 := by
  refine ⟨⟨{ State.reset with cmds := [0#48] }, rfl, ?_⟩, ?_, ?_, ?_, ?_, ?_, ?_, ?_, ?_⟩ <;> unfold IllegalWord <;> decide

theorem witness_FramePacking : frame123.len ≤ 7 ∧ frame123.payload.length + 1 = frame123.len ∧
    (RxFrame.mk 0#8 7 [0#8, 1#8, 2#8, 3#8, 4#8, 5#8]).payload.length + 1 = 7 := by decide
theorem witness_LookupAnswers : rates[0]? = some 1200#32 ∧ rates[9]? = some 460800#32 ∧ 1199#32 ∉ rates ∧ 460801#32 ∉ rates ∧
    (CmdWord.op 0x010100000000#48 = 0x01#8 ∧ CmdWord.port 0x010100000000#48 ≠ 0#8) := by decide
theorem witness_LookupIsPure : (at0 cfgT full).cfg = (State.resetWith cfgT).cfg := rfl
theorem witness_InvalidPortIsRefused : 3 ≤ (3#8).toNat ∧ 3 ≤ (255#8).toNat := by decide

theorem witness_WriteFrameCompletes : ∃ s : State, (s.port .p0).cur = 6 ∧ (s.port .p0).acc.read 0 = some s.cfg.writeId ∧
    (s.port .p0).acc.read 1 = some 1#8 ∧ (s.port .p0).acc.read 2 = some 2#8 ∧ (s.port .p0).acc.read 3 = some 3#8 ∧
    (s.port .p0).acc.read 4 = some 4#8 ∧ (s.port .p0).acc.read 5 = some 5#8 :=
  ⟨at0 cfg7 aboutToWrite, by decide⟩
theorem witness_ReadFrameCompletes : ∃ s : State, (s.port .p0).cur = 3 ∧ (s.port .p0).acc.read 0 = some s.cfg.readId ∧
    (s.port .p0).acc.read 1 = some 0x11#8 ∧ (s.port .p0).acc.read 2 = some 0x12#8 :=
  ⟨at0 cfgT aboutToRead, by decide⟩
/-- With CAP = 8 and with CAP = 7. -/
theorem witness_FullBufferIsDiscarded :
    (∃ s : State, (s.port .p0).cur + 1 = s.cfg.cap ∧ (s.port .p0).acc.read 0 = some 0xFF#8 ∧
      ¬(s.cfg.cap = 7 ∧ 0xFF#8 = s.cfg.writeId)) ∧
    ∃ s : State, s.cfg.cap = 7 ∧ (s.port .p0).cur + 1 = s.cfg.cap ∧ (s.port .p0).acc.read 0 = some 0xFF#8 ∧
      ¬(s.cfg.cap = 7 ∧ 0xFF#8 = s.cfg.writeId) :=
  ⟨⟨at0 cfgT (garbage 7), by decide⟩, ⟨at0 cfg7 (garbage 6), by decide⟩⟩
/-- From `Idle`, and one byte before the buffer is full. -/
theorem witness_OtherBytesAccumulate :
    (∃ s : State, (s.port .p0).cur = 0 ∧ (s.port .p0).cur + 1 < s.cfg.cap ∧
      (if (s.port .p0).cur = 0 then some 0x57#8 else (s.port .p0).acc.read 0) = some 0x57#8 ∧
      ¬(0x57#8 = s.cfg.writeId ∧ (s.port .p0).cur + 1 = 7) ∧ ¬(0x57#8 = s.cfg.readId ∧ (s.port .p0).cur + 1 = 4)) ∧
    ∃ s : State, (s.port .p0).cur + 2 = s.cfg.cap ∧ (s.port .p0).cur + 1 < s.cfg.cap ∧
      (if (s.port .p0).cur = 0 then some 0#8 else (s.port .p0).acc.read 0) = some 0xFF#8 ∧
      ¬(0xFF#8 = s.cfg.writeId ∧ (s.port .p0).cur + 1 = 7) ∧ ¬(0xFF#8 = s.cfg.readId ∧ (s.port .p0).cur + 1 = 4) :=
  ⟨⟨at0 cfgT idle, by decide⟩, ⟨at0 cfgT (garbage 6), by decide⟩⟩

theorem witness_RxbyteFrame : ∃ t, exec (.rxbyte PortId.p0.field false 0x13#8) (at0 cfgT aboutToRead) = .next t := ⟨_, rfl⟩
theorem witness_RxbyteResponseValues : ∃ t, exec (.rxbyte PortId.p0.field true 0#8) (at0 cfgT (garbage 7)) = .next t := ⟨_, rfl⟩
/-- A drop, a discard, and a command that is no RXBYTE of the port. -/
theorem witness_CountersFollowTheResponse :
    (∃ t, exec (.rxbyte PortId.p0.field false 0x13#8) (at0 cfgT aboutToRead) = .next t ∧ t.rsps = [] ++ [okResponse 3#64]) ∧
    (∃ t, exec (.rxbyte PortId.p0.field false 0#8) (at0 cfgT (garbage 7)) = .next t ∧ t.rsps = [] ++ [okResponse 4#64]) ∧
    ∃ t, exec (.stat PortId.p0.field) (at0 cfgT idle) = .next t ∧ t.rsps = [] ++ [okResponse 0#64] :=
  ⟨⟨_, rfl, rfl⟩, ⟨_, rfl, rfl⟩, ⟨_, rfl, rfl⟩⟩
theorem witness_CountersNeverDecrease : ∃ t, step ((at0 cfgT aboutToRead).withFetchWord 48 0x020000000013) = .next t := ⟨_, rfl⟩

theorem witness_RxbyteStopsOnlyOutsideTheInvariant :
    (∃ s : State, s.cfg.cap ≤ (s.port .p0).cur) ∧
    (∃ s : State, (s.port .p0).cur < s.cfg.cap ∧ (s.port .p0).cur ≠ 0 ∧ (s.port .p0).acc.read 0 = none) ∧
    ∃ s : State, exec (.rxbyte 0#8 false 0#8) s = .fault .accOutOfRange :=
  ⟨⟨at0 cfgT { idle with cur := 8 }, by decide⟩, ⟨at0 cfgT { idle with cur := 1 }, by decide⟩,
    ⟨at0 cfgT { idle with cur := 8 }, rfl⟩⟩

theorem witness_ReadCommand : (State.port (at0 cfgT full) .p0).slot = some frame123 ∧ (State.port (at0 cfgT idle) .p0).slot = none ∧
    3 ≤ (3#8).toNat ∧ (CmdWord.op 0x030000000001#48 = 0x03#8 ∧ CmdWord.arg 0x030000000001#48 ≠ 0#32) := by decide
theorem witness_ReadTwiceReturnsTheFrameOnce : (State.port (at0 cfgT full) .p0).slot = some frame123 := rfl
theorem witness_ReconfCommand : 3 ≤ (255#8).toNat ∧
    (CmdWord.op 0x040080000000#48 = 0x04#8 ∧ CmdWord.arg 0x040080000000#48 ≠ 0#32) ∧
    ∃ t u, exec (.reconf PortId.p0.field) (at0 cfgT aboutToRead) = .next t ∧ exec (.reconf PortId.p0.field) t = .next u :=
  ⟨by decide, by decide, ⟨_, _, rfl, rfl⟩⟩
theorem witness_StatCommand : 3 ≤ (3#8).toNat ∧
    (CmdWord.op 0x050000000100#48 = 0x05#8 ∧ CmdWord.arg 0x050000000100#48 ≠ 0#32) := by decide
theorem witness_MainlineCommandsFrame : (∀ p8 brk b, Instr.read 0#8 ≠ .rxbyte p8 brk b) ∧
    ∃ t, exec (.read 0#8) (at0 cfgT aboutToRead) = .next t := ⟨(fun _ _ _ h => by cases h), ⟨_, rfl⟩⟩
theorem witness_StepRunsTheDecodedCommand :
    (∃ s : State, s.cmds = [0x050000000000#48] ∧ decode 0x050000000000#48 = .command (.stat 0#8)) ∧ State.reset.cmds = [] :=
  ⟨⟨State.reset.withFetchWord 48 0x050000000000, rfl, rfl⟩, rfl⟩
/-- An illegal word, an invalid port and an unsupported rate. -/
theorem witness_ErrorsChangeNoState :
    (∃ t, step (State.reset.withFetchWord 48 0) = .next t ∧ t.rsps = [] ++ [⟨.illegalCommand, 0#64⟩]) ∧
    (∃ t, step (State.reset.withFetchWord 48 0x030300000000) = .next t ∧ t.rsps = [] ++ [⟨.invalidPort, 0#64⟩]) ∧
    ∃ t, step (State.reset.withFetchWord 48 0x010000000000) = .next t ∧ t.rsps = [] ++ [⟨.unsupportedBaud, 0#64⟩] :=
  ⟨⟨_, rfl, rfl⟩, ⟨_, rfl, rfl⟩, ⟨_, rfl, rfl⟩⟩

theorem idle_inv (c : Cfg) : PortState.reset.Inv c :=
  have h := c.cap_ge
  ⟨List.Pairwise.nil, (by intro e he; cases he), (by show 0 < c.cap; omega), (by intro k hk; exact absurd hk (Nat.not_lt_zero k)),
    (by intro h; exact absurd (show 1 ≤ 0 from h) (by decide)), (by intro h; exact absurd (show 1 ≤ 0 from h) (by decide)),
    (by intro f hf; cases hf)⟩

/-- The start state of programs 4a and 4b meets the invariant: three bytes of a read frame, and a frame pending. -/
theorem aboutToRead_inv : (at0 cfgT aboutToRead).Inv := by
  intro p
  cases p with
  | p1 => exact idle_inv cfgT
  | p2 => exact idle_inv cfgT
  | p0 =>
    refine ⟨by decide, by decide, by decide, ?_, by decide, by decide, ?_⟩
    · intro k hk
      have : k = 0 ∨ k = 1 ∨ k = 2 := by
        have : k < 3 := hk
        omega
      rcases this with rfl | rfl | rfl <;> exact ⟨_, rfl⟩
    · intro f hf
      cases hf
      exact ⟨.inr ⟨rfl, rfl⟩, rfl⟩

theorem witness_StepKeepsTheInvariant : ∃ s t : State, s.Inv ∧ step s = .next t :=
  ⟨_, _, aboutToRead_inv, rfl⟩
theorem witness_StepNeverStops : ∃ s : State, s.Inv ∧ s.cmds = [0x020000000013#48] :=
  ⟨(at0 cfgT aboutToRead).withFetchWord 48 0x020000000013, by
    intro p
    cases p with
    | p0 => exact aboutToRead_inv .p0
    | p1 => exact aboutToRead_inv .p1
    | p2 => exact aboutToRead_inv .p2, rfl⟩
theorem witness_EveryCommandCompletes : ∃ s : State, s.Inv := ⟨_, aboutToRead_inv⟩
theorem witness_CursorFitsItsRegister : ∃ s : State, s.Inv := ⟨_, aboutToRead_inv⟩

/-- Two states that agree on port 0 and differ on port 1. -/
theorem witness_PortsDoNotInterfere : ∃ (s s' t : State), namedPort (.rxbyte 0#8 false 0x13#8) = some .p0 ∧ s'.cfg = s.cfg ∧
    s'.port .p0 = s.port .p0 ∧ s' ≠ s ∧ exec (.rxbyte 0#8 false 0x13#8) s = .next t ∧ exec (.lookup 9600#32) s ≠ .next s :=
  ⟨at0 cfgT aboutToRead, { at0 cfgT aboutToRead with port1 := garbage 2 }, _, rfl, rfl, rfl, by decide, rfl,
    fun h => by have h' := congrArg rsps h; revert h'; decide⟩
theorem witness_CommandsOnDifferentPortsCommute : ∃ (s t : State), namedPort (.read 0#8) = some .p0 ∧
    namedPort (.rxbyte 2#8 false 0#8) = some .p2 ∧ PortId.p0 ≠ .p2 ∧
    execAll [.read 0#8, .rxbyte 2#8 false 0#8] s = .next t :=
  ⟨at0 cfgT full, _, rfl, rfl, by decide, rfl⟩
theorem witness_ReadAgainstCompletionInBothOrders : ∃ (s v : State), (s.port .p0).slot = some frame123 ∧
    exec (.rxbyte PortId.p0.field false 0x13#8) s = .next v ∧ v.rsps = s.rsps ++ [okResponse 3#64] :=
  ⟨at0 cfgT aboutToRead, _, rfl, rfl, by decide⟩
theorem witness_ReadFrameRoundTrip : (State.port (at0 cfgT full) .p0).cur = 0 := rfl
theorem witness_SecondWriteFrameWins : (State.port (at0 cfgT idle) .p0).cur = 0 ∧ (State.port (at0 cfgT idle) .p0).slot = none ∧
    (State.port (at0 cfgT idle) .p0).dropped.toNat < 2 ^ 32 - 1 := by decide
theorem witness_UnrecognisedByteSwallowsCapBytes : (State.port (at0 cfgT idle) .p0).cur = 0 ∧ 0xFF#8 ≠ cfgT.writeId ∧
    0xFF#8 ≠ cfgT.readId ∧ [0x57#8, 1#8, 2#8, 3#8, 4#8, 5#8, 6#8].length + 1 = cfgT.cap := by decide
theorem witness_BytesKeepArrivalOrder : ∃ t, (State.port (at0 cfgT idle) .p0).cur = 0 ∧
    execAll (receiveAll .p0 [0x52#8, 0xAA#8, 0xBB#8]) (at0 cfgT idle) = .next t ∧ (t.port .p0).cur = 3 :=
  ⟨_, rfl, rfl, rfl⟩
/-- An empty slot, and two full ones. -/
theorem witness_SlotRegistersHoldTheSlot : idle.slot = none ∧ (∀ f, full.slot = some f → f.Valid cfgT) ∧
    full.ready = full.ready ∧ full.slotLen = 4#4 := by
  refine ⟨rfl, fun f hf => ?_, rfl, rfl⟩
  cases hf
  exact ⟨.inr ⟨rfl, rfl⟩, rfl⟩
theorem witness_ConfigurationsAdmitted : ∃ c, Config.accept rawT = some c := ⟨_, rfl⟩
theorem witness_PseudoCommandsExpand : [0x52#8] ≠ [] := by decide

end Sys2Proof.Tests
end

