-- ==== Sys2Proof/Proofs/Scope.lean ====
section
/-! SUPPORT. The packed frame (R11, R79), the admission of a configuration (R8, D30) and the step that takes one word
(R5, R72). -/

namespace Sys2Proof.Machine

/- The packed frame: its value as a number, and from it the field at each bit range. -/

/-- `pack(f)` as a sum: the present flag, the length and the seven bytes, each at its weight (R11). -/
theorem RxFrame.pack_toNat (f : RxFrame) :
    f.pack.toNat = 2 ^ 63 + f.len % 2 ^ 4 * 2 ^ 56 + (f.byte 6).toNat * 2 ^ 48 + (f.byte 5).toNat * 2 ^ 40 +
      (f.byte 4).toNat * 2 ^ 32 + (f.byte 3).toNat * 2 ^ 24 + (f.byte 2).toNat * 2 ^ 16 + (f.byte 1).toNat * 2 ^ 8 +
      (f.byte 0).toNat := by
  unfold RxFrame.pack
  simp only [toNat_append_eq, BitVec.toNat_ofNat]
  omega

/-- The byte above the seven frame bytes: the present flag and the length, the three bits between them zero. -/
theorem RxFrame.pack_toNat_div (f : RxFrame) : f.pack.toNat / 2 ^ 56 = 2 ^ 7 + f.len % 2 ^ 4 := by
  rw [f.pack_toNat]
  omega

theorem RxFrame.pack_extract_toNat (f : RxFrame) (start len : Nat) :
    (f.pack.extractLsb' start len).toNat = f.pack.toNat / 2 ^ start % 2 ^ len := by
  rw [BitVec.extractLsb'_toNat, Nat.shiftRight_eq_div_pow]

theorem RxFrame.pack_present (f : RxFrame) : f.pack.getLsbD 63 = true := by
  rw [BitVec.getLsbD, Nat.testBit_eq_decide_div_mod_eq, decide_eq_true_eq]
  have := f.pack_toNat_div
  omega

theorem RxFrame.pack_zeros (f : RxFrame) : f.pack.extractLsb' 60 3 = 0#3 := by
  apply BitVec.eq_of_toNat_eq
  rw [f.pack_extract_toNat, BitVec.toNat_ofNat]
  have := f.pack_toNat_div
  omega

theorem RxFrame.pack_len {f : RxFrame} (hlen : f.len < 16) : (f.pack.extractLsb' 56 4).toNat = f.len := by
  rw [f.pack_extract_toNat, f.pack_toNat_div]
  omega

theorem RxFrame.pack_byte (f : RxFrame) {k : Nat} (hk : k < 7) : f.pack.extractLsb' (8 * k) 8 = f.byte k := by
  apply BitVec.eq_of_toNat_eq
  rw [f.pack_extract_toNat, f.pack_toNat]
  have hcases : k = 0 ∨ k = 1 ∨ k = 2 ∨ k = 3 ∨ k = 4 ∨ k = 5 ∨ k = 6 := by omega
  obtain rfl | rfl | rfl | rfl | rfl | rfl | rfl := hcases <;> omega

/-- Where the length counts the identifier and the payload, the test against the length in `RxFrame.byte` changes
nothing: a list read beyond its end gives zero as well. -/
theorem RxFrame.byte_eq_getD {f : RxFrame} (hf : f.payload.length + 1 = f.len) (k : Nat) :
    f.byte k = (f.id :: f.payload).getD k 0#8 := by
  unfold RxFrame.byte
  split
  · rfl
  · next hk =>
    have hout : (f.id :: f.payload).length ≤ k := by rw [List.length_cons]; omega
    rw [List.getD_eq_getElem?_getD, List.getElem?_eq_none hout, Option.getD_none]

/-- Settles O7: the fields of `pack`, each read off its sum. -/
theorem framePacking : Obligations.FramePacking := by
  intro f hlen hf
  refine ⟨f.pack_present, f.pack_zeros, RxFrame.pack_len (by omega), fun k hk => ?_⟩
  rw [f.pack_byte hk, RxFrame.byte_eq_getD hf]

end Sys2Proof.Machine

namespace Sys2Proof

/- Admission: `Config.accept` is the partial inverse of writing a configuration down as numbers. -/

/-- A table entry as the three numbers that write it down. -/
def TimingParams.toNats (t : TimingParams) : Nat × Nat × Nat := (t.div.toNat, t.mod1.toNat, t.mod2.toNat)

/-- A configuration as the numbers that write it down. -/
def Cfg.toRaw (c : Cfg) : RawCfg :=
  { writeId := c.writeId.toNat, readId := c.readId.toNat, cap := c.cap, rom := c.rom.toList.map TimingParams.toNats }

theorem TimingParams.ofNats_toNats (t : TimingParams) : TimingParams.ofNats? t.toNats = some t := by
  unfold TimingParams.ofNats? TimingParams.toNats
  rw [if_pos ⟨t.div.isLt, t.mod1.isLt, t.mod2.isLt⟩]
  simp only [BitVec.ofNat_toNat, BitVec.setWidth_eq]

theorem TimingParams.toNats_of_ofNats {e : Nat × Nat × Nat} {t : TimingParams}
    (h : TimingParams.ofNats? e = some t) : t.toNats = e := by
  unfold TimingParams.ofNats? at h
  split at h
  · next hfits =>
    obtain ⟨hdiv, hmod1, hmod2⟩ := hfits
    cases h
    simp only [TimingParams.toNats, BitVec.toNat_ofNat, Nat.mod_eq_of_lt, hdiv, hmod1, hmod2]
  · cases h

/-- The entries that fit the widths of R8 are the ones some `TimingParams` is written down as. -/
theorem TimingParams.exists_toNats_iff {e : Nat × Nat × Nat} :
    (∃ t : TimingParams, t.toNats = e) ↔ e.1 < 65536 ∧ e.2.1 < 256 ∧ e.2.2 < 256 := by
  constructor
  · rintro ⟨t, rfl⟩
    exact ⟨t.div.isLt, t.mod1.isLt, t.mod2.isLt⟩
  · intro hfits
    exact ⟨_, TimingParams.toNats_of_ofNats (if_pos hfits)⟩

theorem TimingParams.exists_map_toNats {es : List (Nat × Nat × Nat)}
    (h : ∀ e ∈ es, e.1 < 65536 ∧ e.2.1 < 256 ∧ e.2.2 < 256) :
    ∃ ts : List TimingParams, ts.map TimingParams.toNats = es := by
  induction es with
  | nil => exact ⟨[], rfl⟩
  | cons e es ih =>
    obtain ⟨t, ht⟩ := TimingParams.exists_toNats_iff.mpr (h e List.mem_cons_self)
    obtain ⟨ts, hts⟩ := ih fun e' he' => h e' (List.mem_cons_of_mem e he')
    exact ⟨t :: ts, by rw [List.map_cons, ht, hts]⟩

theorem romOfNats_eq_some_iff {es : List (Nat × Nat × Nat)} {ts : List TimingParams} :
    romOfNats? es = some ts ↔ ts.map TimingParams.toNats = es := by
  constructor
  · intro h
    induction es generalizing ts with
    | nil => cases h; rfl
    | cons e es ih =>
      unfold romOfNats? at h
      split at h
      · next t ts' ht hts => cases h; rw [List.map_cons, TimingParams.toNats_of_ofNats ht, ih hts]
      · cases h
  · rintro rfl
    induction ts with
    | nil => rfl
    | cons t ts ih => simp only [List.map_cons, romOfNats?, TimingParams.ofNats_toNats, ih]

/-- The configuration made from numbers within their widths is written down as those numbers. -/
theorem Cfg.toRaw_mk {r : RawCfg} {ts : List TimingParams} (hw : r.writeId < 2 ^ 8) (hr : r.readId < 2 ^ 8)
    (hts : ts.map TimingParams.toNats = r.rom) (hlen : ts.toArray.size = 10)
    (hok : CfgData.wellFormed ⟨BitVec.ofNat 8 r.writeId, BitVec.ofNat 8 r.readId, r.cap, ⟨ts.toArray, hlen⟩⟩ = true) :
    Cfg.toRaw ⟨_, hok⟩ = r := by
  simp only [Cfg.toRaw, BitVec.toNat_ofNat, Nat.mod_eq_of_lt, hw, hr, Vector.toList_mk, hts]

theorem Config.toRaw_of_accept {r : RawCfg} {c : Cfg} (h : Config.accept r = some c) : c.toRaw = r := by
  unfold Config.accept at h
  split at h
  · cases h
  · next ts hts =>
    split at h
    · next hlen =>
      split at h
      · next hids =>
        obtain ⟨hw, hr⟩ := hids
        simp only at h
        split at h
        · next hok =>
          cases h
          exact Cfg.toRaw_mk hw hr (romOfNats_eq_some_iff.mp hts) hlen hok
        · cases h
      · cases h
    · cases h

theorem Config.accept_toRaw (c : Cfg) : Config.accept c.toRaw = some c := by
  have hrom : romOfNats? (c.rom.toList.map TimingParams.toNats) = some c.rom.toList := romOfNats_eq_some_iff.mpr rfl
  have hids : c.writeId.toNat < 2 ^ 8 ∧ c.readId.toNat < 2 ^ 8 := ⟨c.writeId.isLt, c.readId.isLt⟩
  have hsize : c.rom.toList.toArray.size = 10 := by rw [List.size_toArray, Vector.length_toList]
  simp only [Config.accept, Cfg.toRaw, hrom, BitVec.ofNat_toNat, BitVec.setWidth_eq]
  rw [dif_pos hsize, if_pos hids]
  exact dif_pos c.ok

/-- D30: admission refuses exactly the numbers that write down no configuration of R8, and answers the configuration
they write down otherwise. -/
theorem Config.accept_eq_some_iff {r : RawCfg} {c : Cfg} : Config.accept r = some c ↔ c.toRaw = r :=
  ⟨Config.toRaw_of_accept, fun h => h ▸ Config.accept_toRaw c⟩

theorem Config.accept_isSome_iff {r : RawCfg} : (Config.accept r).isSome = true ↔ ∃ c : Cfg, c.toRaw = r := by
  simp only [Option.isSome_iff_exists, Config.accept_eq_some_iff]

/-- Numbers within their widths that meet the constraints of R8 write down a configuration. -/
theorem Cfg.exists_toRaw {r : RawCfg} (hw : r.writeId < 256) (hr : r.readId < 256) (hne : r.writeId ≠ r.readId)
    (hge : 7 ≤ r.cap) (hle : r.cap ≤ 255) (hlen : r.rom.length = 10)
    (hrom : ∀ e ∈ r.rom, e.1 < 65536 ∧ e.2.1 < 256 ∧ e.2.2 < 256) : ∃ c : Cfg, c.toRaw = r := by
  obtain ⟨ts, hts⟩ := TimingParams.exists_map_toNats hrom
  have hsize : ts.toArray.size = 10 := by rw [List.size_toArray, ← hlen, ← hts, List.length_map]
  have hids : BitVec.ofNat 8 r.writeId ≠ BitVec.ofNat 8 r.readId := by
    rw [Ne, BitVec.toNat_eq, BitVec.toNat_ofNat, BitVec.toNat_ofNat, Nat.mod_eq_of_lt hw, Nat.mod_eq_of_lt hr]
    exact hne
  refine ⟨⟨⟨BitVec.ofNat 8 r.writeId, BitVec.ofNat 8 r.readId, r.cap, ⟨ts.toArray, hsize⟩⟩, ?_⟩, ?_⟩
  · rw [CfgData.wellFormed, Bool.and_eq_true, Bool.and_eq_true, bne_iff_ne]
    exact ⟨⟨hids, decide_eq_true hge⟩, decide_eq_true hle⟩
  · exact Cfg.toRaw_mk hw hr hts hsize _

/-- A configuration written down as numbers fits its widths and meets the constraints of R8. -/
theorem Cfg.toRaw_admissible (c : Cfg) :
    c.toRaw.writeId < 256 ∧ c.toRaw.readId < 256 ∧ c.toRaw.writeId ≠ c.toRaw.readId ∧ 7 ≤ c.toRaw.cap ∧
      c.toRaw.cap ≤ 255 ∧ c.toRaw.rom.length = 10 ∧
      ∀ e ∈ c.toRaw.rom, e.1 < 65536 ∧ e.2.1 < 256 ∧ e.2.2 < 256 := by
  refine ⟨c.writeId.isLt, c.readId.isLt, fun h => c.ids_ne (BitVec.eq_of_toNat_eq h), c.cap_ge, c.cap_le, ?_, ?_⟩
  · rw [Cfg.toRaw, List.length_map, Vector.length_toList]
  · intro e he
    obtain ⟨t, -, rfl⟩ := List.mem_map.mp he
    exact TimingParams.exists_toNats_iff.mp ⟨t, rfl⟩

/-- Settles O44: what is admitted is what writes down a configuration, and it holds the numbers that write it down. -/
theorem configurationsAdmitted : Obligations.ConfigurationsAdmitted := by
  intro r
  refine ⟨?_, fun c hc => ?_⟩
  · rw [Config.accept_isSome_iff]
    constructor
    · rintro ⟨c, rfl⟩
      exact c.toRaw_admissible
    · rintro ⟨hw, hr, hne, hge, hle, hlen, hrom⟩
      exact Cfg.exists_toRaw hw hr hne hge hle hlen hrom
  · obtain rfl := Config.toRaw_of_accept hc
    refine ⟨rfl, rfl, rfl, fun i => ?_⟩
    simp only [Cfg.toRaw, List.getElem?_map, Vector.getElem?_toList, Vector.getElem?_eq_getElem i.isLt,
      Option.map_some, TimingParams.toNats, Fin.getElem_fin]

end Sys2Proof

namespace Sys2Proof.Machine

/- One step, by the word the environment offers. -/

theorem step_of_no_word {s : State} (h : s.cmds = []) : step s = .next s := by
  rw [step, State.takeCommand_nil h]

theorem step_of_command {s : State} {w : CmdWord} {rest : List CmdWord} {i : Instr} (h : s.cmds = w :: rest)
    (hw : decode w = .command i) : step s = exec i { s with cmds := rest } := by
  simp only [step, State.takeCommand_cons h, hw]

/-- Settles O26: by whether the environment offers a word. -/
theorem stepRunsTheDecodedCommand : Obligations.StepRunsTheDecodedCommand :=
  ⟨fun _ _ _ _ => step_of_command, fun _ => step_of_no_word⟩

end Sys2Proof.Machine
end

/-! SUPPORT. The state of 10_state.md: what a command does to the port it names and to nothing else (R36), the
invariant of R35, the counters of R28 and R29, and the register forms of R22 and R25. -/

namespace Sys2Proof.Machine

/- A command as a function of the one port it names. -/

@[simp] theorem State.setPort_port_self (s : State) (p : PortId) : s.setPort p (s.port p) = s := by
  cases p <;> rfl

/-- What a command does to the port it names, and the `rdata` it answers with. LOOKUP names no port and leaves every
port as it is. -/
def PortState.answer (c : Cfg) (q : PortState) : Instr → Except Fault (PortState × BitVec 64)
  | .lookup _ => .ok (q, 0#64)
  | .rxbyte _ _ b => (q.receive c b).map fun r => (r.1, r.2.rdata)
  | .read _ => .ok ({ q with slot := none }, q.slot.elim 0#64 RxFrame.pack)
  | .reconf _ => .ok ({ q with cur := 0, slot := none }, 0#64)
  | .stat _ => .ok (q, statRdata q.dropped q.overlong)

/-- The outcome of a command that did `a` to port `p`. -/
def State.answerAt (s : State) (p : PortId) : Except Fault (PortState × BitVec 64) → Host.Outcome State Fault Refusal
  | .error f => .fault f
  | .ok (q, d) => .next ((s.setPort p q).respond .ok d)

theorem State.answerAt_eq_next_iff {s t : State} {p : PortId} {a : Except Fault (PortState × BitVec 64)} :
    s.answerAt p a = .next t ↔ ∃ q d, a = .ok (q, d) ∧ t = (s.setPort p q).respond .ok d := by
  cases a with
  | error f => exact ⟨nofun, nofun⟩
  | ok r =>
    constructor
    · intro h
      exact ⟨r.1, r.2, rfl, (Host.Outcome.next.inj h).symm⟩
    · rintro ⟨q, d, hr, rfl⟩
      rw [hr]
      rfl

/-- R36: a command that names a port is its effect on that port and the configuration, and nothing else. -/
theorem exec_of_namedPort {i : Instr} {p : PortId} (hp : namedPort i = some p) (s : State) :
    exec i s = s.answerAt p ((s.port p).answer s.cfg i) := by
  cases i with
  | lookup baud => cases hp
  | rxbyte p8 brk b =>
    change portOf? p8 = some p at hp
    simp only [exec, execRxbyte, hp, PortState.answer]
    cases (s.port p).receive s.cfg b <;> rfl
  | read p8 =>
    change portOf? p8 = some p at hp
    simp only [exec, execRead, hp, PortState.answer]
    cases hslot : (s.port p).slot with
    | some f => rfl
    | none =>
      have hkept : { s.port p with slot := none } = s.port p := by rw [← hslot]
      simp [State.answerAt, hkept]
  | reconf p8 =>
    change portOf? p8 = some p at hp
    simp only [exec, execReconf, hp, PortState.answer, State.answerAt]
  | stat p8 =>
    change portOf? p8 = some p at hp
    simp only [exec, execStat, hp, PortState.answer, State.answerAt, State.setPort_port_self]

/-- A command that names no port only gives a response, which depends on the configuration alone. -/
theorem exec_of_noPort {i : Instr} (hp : namedPort i = none) (c : Cfg) :
    ∃ e d, ∀ s : State, s.cfg = c → exec i s = .next (s.respond e d) := by
  cases i with
  | lookup baud =>
    cases hi : baudIndex baud with
    | none => exact ⟨.unsupportedBaud, 0#64, fun s _ => by simp only [exec, execLookup, hi, State.raise]⟩
    | some k => exact ⟨.ok, lookupRdata c.rom[k], fun s hs => by simp only [exec, execLookup, hi, hs]⟩
  | rxbyte p8 brk b | read p8 | reconf p8 | stat p8 =>
    change portOf? p8 = none at hp
    refine ⟨.invalidPort, 0#64, fun s _ => ?_⟩
    simp only [exec, execRxbyte, execRead, execReconf, execStat, hp, State.raise]

theorem exec_namedPort_next_iff {i : Instr} {p : PortId} (hp : namedPort i = some p) {s t : State} :
    exec i s = .next t ↔
      ∃ q d, (s.port p).answer s.cfg i = .ok (q, d) ∧ t = (s.setPort p q).respond .ok d := by
  rw [exec_of_namedPort hp, State.answerAt_eq_next_iff]

/-- The inversion of `exec`: a response alone, or the answer of the port named. -/
theorem exec_cases {i : Instr} {s t : State} (h : exec i s = .next t) :
    (namedPort i = none ∧ ∃ e d, t = s.respond e d) ∨
    ∃ p q d, namedPort i = some p ∧ (s.port p).answer s.cfg i = .ok (q, d) ∧ t = (s.setPort p q).respond .ok d := by
  cases hp : namedPort i with
  | none =>
    obtain ⟨e, d, hexec⟩ := exec_of_noPort hp s.cfg
    rw [hexec s rfl] at h
    exact .inl ⟨rfl, e, d, (Host.Outcome.next.inj h).symm⟩
  | some p =>
    obtain ⟨q, d, hq, ht⟩ := (exec_namedPort_next_iff hp).mp h
    exact .inr ⟨p, q, d, rfl, hq, ht⟩

theorem exec_cfg {i : Instr} {s t : State} (h : exec i s = .next t) : t.cfg = s.cfg := by
  obtain ⟨-, e, d, rfl⟩ | ⟨p, q, d, -, -, rfl⟩ := exec_cases h
  · exact State.respond_cfg s e d
  · simp only [State.respond_cfg, State.setPort_cfg]

theorem exec_cmds {i : Instr} {s t : State} (h : exec i s = .next t) : t.cmds = s.cmds := by
  obtain ⟨-, e, d, rfl⟩ | ⟨p, q, d, -, -, rfl⟩ := exec_cases h
  · exact State.respond_cmds s e d
  · simp only [State.respond_cmds, State.setPort_cmds]

/-- What a command does to one port: nothing, or it names the port and leaves there its answer. -/
theorem exec_port_cases {i : Instr} {s t : State} (h : exec i s = .next t) (r : PortId) :
    t.port r = s.port r ∨
    (namedPort i = some r ∧ ∃ d, (s.port r).answer s.cfg i = .ok (t.port r, d)) := by
  obtain ⟨-, e, d, rfl⟩ | ⟨p, q, d, hp, hq, rfl⟩ := exec_cases h
  · exact .inl (State.respond_port s e d r)
  · rw [State.respond_port]
    by_cases hr : r = p
    · subst hr
      rw [State.port_setPort_same]
      exact .inr ⟨hp, d, hq⟩
    · exact .inl (State.port_setPort_other s q hr)

theorem step_cfg {s t : State} (h : step s = .next t) : t.cfg = s.cfg := by
  obtain ⟨-, rfl⟩ | ⟨w, rest, -, ⟨e, -, rfl⟩ | ⟨i, -, hi⟩⟩ := step_cases h
  · rfl
  · rfl
  · have hcfg := exec_cfg hi
    exact hcfg

/-- What a step does to one port: nothing, or what some command answers there. -/
theorem step_port_cases {s t : State} (h : step s = .next t) (r : PortId) :
    t.port r = s.port r ∨ ∃ i d, (s.port r).answer s.cfg i = .ok (t.port r, d) := by
  obtain ⟨-, rfl⟩ | ⟨w, rest, -, ⟨e, -, rfl⟩ | ⟨i, -, hi⟩⟩ := step_cases h
  · exact .inl rfl
  · exact .inl (by rw [State.answerIllegal, State.raise_port, State.port_cmds])
  · have hport := exec_port_cases hi r
    rw [State.port_cmds] at hport
    exact hport.imp_right fun ⟨_, d, hd⟩ => ⟨i, d, hd⟩

theorem PortState.answer_rxbyte (c : Cfg) (q : PortState) (p8 : Byte) (brk : Bool) (b : Byte) :
    q.answer c (.rxbyte p8 brk b) = (q.receive c b).map fun r => (r.1, r.2.rdata) := rfl

/-- RXBYTE leaves at its port what one receive invocation leaves there. -/
theorem PortState.answer_rxbyte_ok_iff {c : Cfg} {q q' : PortState} {p8 b : Byte} {brk : Bool} {d : BitVec 64} :
    q.answer c (.rxbyte p8 brk b) = .ok (q', d) ↔ ∃ fl, q.receive c b = .ok (q', fl) ∧ d = fl.rdata := by
  rw [PortState.answer_rxbyte]
  cases q.receive c b with
  | error f => exact ⟨nofun, nofun⟩
  | ok r =>
    constructor
    · intro h
      obtain ⟨rfl, rfl⟩ := Prod.mk.inj (Except.ok.inj h)
      exact ⟨r.2, rfl, rfl⟩
    · rintro ⟨fl, hr, rfl⟩
      rw [hr]
      rfl

/-- RXBYTE on a port that exists answers only by way of an invocation that does. -/
theorem exec_rxbyte_cases {s t : State} {p : PortId} {brk : Bool} {b : Byte}
    (h : exec (.rxbyte p.field brk b) s = .next t) :
    ∃ q fl, (s.port p).receive s.cfg b = .ok (q, fl) ∧ t = (s.setPort p q).respond .ok fl.rdata := by
  have hp : namedPort (.rxbyte p.field brk b) = some p := portOf_field p
  obtain ⟨q, d, hq, rfl⟩ := (exec_namedPort_next_iff hp).mp h
  obtain ⟨fl, hfl, rfl⟩ := PortState.answer_rxbyte_ok_iff.mp hq
  exact ⟨q, fl, hfl, rfl⟩

/- The invariant of R35. -/

/-- An `Idle` port meets the invariant when its buffer and its slot do. -/
theorem PortState.Inv.of_idle {c : Cfg} {q : PortState} (hcur : q.cur = 0) (hwf : q.acc.wf)
    (hin : ∀ e ∈ q.acc, e.1 < c.cap) (hslot : ∀ f, q.slot = some f → f.Valid c) : q.Inv c where
  wf := hwf
  inBuffer := hin
  curBound := by have := c.cap_ge; omega
  written := by intro k hk; omega
  writeArmed := by omega
  readArmed := by omega
  slotValid := hslot

/-- The frame a completed accumulation delivers is one that R23 allows. -/
theorem frameOf_valid {c : Cfg} {acc : Memory} {n : Nat} {f : RxFrame} {first : Byte} (hf : frameOf? acc n = some f)
    (hfirst : acc.read 0 = some first)
    (hid : (first = c.writeId ∧ n = writeLen) ∨ (first = c.readId ∧ n = readLen)) : f.Valid c := by
  obtain ⟨hlen, hpay, hread, -⟩ := frameOf_spec hf
  rw [hfirst, Option.some.injEq] at hread
  subst hread hlen
  exact ⟨hid, hpay⟩

/-- A completion keeps the invariant, the frame it delivers being valid. -/
theorem PortState.complete_inv {c : Cfg} {q q' : PortState} {acc : Memory} {n : Nat} {fl : RxFlags} {first : Byte}
    (hwf : acc.wf) (hin : ∀ e ∈ acc, e.1 < c.cap) (hfirst : acc.read 0 = some first)
    (hid : (first = c.writeId ∧ n = writeLen) ∨ (first = c.readId ∧ n = readLen))
    (h : q.complete acc n = .ok (q', fl)) : q'.Inv c := by
  obtain ⟨f, hf, rfl, -⟩ := PortState.complete_cases h
  refine .of_idle rfl hwf hin fun g hg => ?_
  cases hg
  exact frameOf_valid hf hfirst hid

/-- An append that neither completes a frame nor fills the buffer keeps the invariant. -/
theorem PortState.advance_inv {c : Cfg} {q : PortState} {b first : Byte} (hq : q.Inv c)
    (hfirst : (q.acc.write q.cur b).read 0 = some first) (hw : ¬(q.cur + 1 = writeLen ∧ first = c.writeId))
    (hr : ¬(q.cur + 1 = readLen ∧ first = c.readId)) (hcap : q.cur + 1 ≠ c.cap) :
    (q.advance (q.acc.write q.cur b) (q.cur + 1)).1.Inv c := by
  have hlt := hq.curBound
  have hread0 : q.cur ≠ 0 → q.acc.read 0 = some first := fun hne => by
    rw [← hfirst, q.first_after_write, if_neg hne]
  refine ⟨Memory.write_wf _ b hq.wf, Memory.write_inBuffer b hlt hq.inBuffer, ?_, ?_, ?_, ?_, hq.slotValid⟩
  · show q.cur + 1 < c.cap
    omega
  · show ∀ k < q.cur + 1, ∃ v, (q.acc.write q.cur b).read k = some v
    intro k hk
    rw [Memory.read_write]
    split
    · exact ⟨b, rfl⟩
    · exact hq.written k (by omega)
  · show 1 ≤ q.cur + 1 → (q.acc.write q.cur b).read 0 = some c.writeId → q.cur + 1 ≤ 6
    intro _ hid
    obtain rfl : first = c.writeId := Option.some.inj (hfirst.symm.trans hid)
    have harmed : q.cur ≠ 0 → q.cur ≤ 6 := fun hne => hq.writeArmed (by omega) (hread0 hne)
    have hne : q.cur + 1 ≠ 7 := fun h => hw ⟨h, rfl⟩
    omega
  · show 1 ≤ q.cur + 1 → (q.acc.write q.cur b).read 0 = some c.readId → q.cur + 1 ≤ 3
    intro _ hid
    obtain rfl : first = c.readId := Option.some.inj (hfirst.symm.trans hid)
    have harmed : q.cur ≠ 0 → q.cur ≤ 3 := fun hne => hq.readArmed (by omega) (hread0 hne)
    have hne : q.cur + 1 ≠ 4 := fun h => hr ⟨h, rfl⟩
    omega

/-- One receive invocation keeps the invariant: the four rows of R133. -/
theorem PortState.receive_inv {c : Cfg} {q q' : PortState} {b : Byte} {fl : RxFlags} (hq : q.Inv c)
    (h : q.receive c b = .ok (q', fl)) : q'.Inv c := by
  have hwf := Memory.write_wf q.cur b hq.wf
  have hin := Memory.write_inBuffer b hq.curBound hq.inBuffer
  obtain ⟨-, first, hfirst, ⟨hn, hid, hc⟩ | ⟨hn, hid, hc⟩ | ⟨-, -, -, hd⟩ | ⟨hw, hr, hcap, ha⟩⟩ :=
    PortState.receive_cases h
  · exact PortState.complete_inv hwf hin hfirst (.inl ⟨hid, rfl⟩) hc
  · exact PortState.complete_inv hwf hin hfirst (.inr ⟨hid, rfl⟩) hc
  · cases hd
    exact .of_idle rfl hwf hin hq.slotValid
  · cases ha
    exact PortState.advance_inv hq hfirst hw hr hcap

theorem PortState.Inv.empty_slot {c : Cfg} {q : PortState} (hq : q.Inv c) : PortState.Inv c { q with slot := none } where
  wf := hq.wf
  inBuffer := hq.inBuffer
  curBound := hq.curBound
  written := hq.written
  writeArmed := hq.writeArmed
  readArmed := hq.readArmed
  slotValid := nofun

/-- Every command keeps the invariant of the port it names. -/
theorem PortState.answer_inv {c : Cfg} {q q' : PortState} {i : Instr} {d : BitVec 64} (hq : q.Inv c)
    (h : q.answer c i = .ok (q', d)) : q'.Inv c := by
  cases i with
  | lookup baud => cases h; exact hq
  | rxbyte p8 brk b =>
    obtain ⟨fl, hfl, -⟩ := PortState.answer_rxbyte_ok_iff.mp h
    exact PortState.receive_inv hq hfl
  | read p8 => cases h; exact hq.empty_slot
  | reconf p8 => cases h; exact .of_idle rfl hq.wf hq.inBuffer nofun
  | stat p8 => cases h; exact hq

/-- Settles O31: a step leaves a port as it is, or leaves there the answer of a command, which keeps the invariant. -/
theorem stepKeepsTheInvariant : Obligations.StepKeepsTheInvariant := by
  intro s t hs h
  refine ⟨fun r => ?_, step_cfg h⟩
  rw [step_cfg h]
  obtain hport | ⟨i, d, hd⟩ := step_port_cases h r
  · rw [hport]; exact hs r
  · exact PortState.answer_inv (hs r) hd

theorem PortState.reset_inv (c : Cfg) : PortState.reset.Inv c := .of_idle rfl .nil nofun nofun

/-- Settles O30: every port is `Idle` with an empty buffer and an empty slot. -/
theorem resetMeetsTheInvariant : Obligations.ResetMeetsTheInvariant := by
  have hreset : ∀ c : Cfg, (State.resetWith c).Inv := fun c p => by
    rw [State.resetWith_port]
    exact PortState.reset_inv c
  exact ⟨hreset Config.hardware, hreset⟩

/- Where RXBYTE stops. -/

/-- A frame completes when every byte below the newest holds a value, as item 2 of R35 says. -/
theorem PortState.complete_isOk {q : PortState} {b : Byte} {n : Nat} (hn : q.cur + 1 = n)
    (hwritten : ∀ k < q.cur, ∃ v, q.acc.read k = some v) : ∃ r, q.complete (q.acc.write q.cur b) n = .ok r := by
  obtain ⟨f, hf⟩ : ∃ f, frameOf? (q.acc.write q.cur b) n = some f := by
    refine frameOf_isSome (by omega) fun k hk => ?_
    rw [Memory.read_write]
    split
    · exact ⟨b, rfl⟩
    · exact hwritten k (by omega)
  unfold PortState.complete
  rw [hf]
  exact ⟨_, rfl⟩

/-- No invocation stops on a port that meets the invariant. -/
theorem PortState.receive_isOk_of_inv {c : Cfg} {q : PortState} (hq : q.Inv c) (b : Byte) :
    ∃ r, q.receive c b = .ok r := by
  obtain ⟨first, hfirst⟩ : ∃ first, (q.acc.write q.cur b).read 0 = some first := by
    rw [q.first_after_write]
    split
    · exact ⟨b, rfl⟩
    · exact hq.written 0 (by omega)
  rw [PortState.receive_of_first hq.curBound hfirst]
  split
  · next hw => exact PortState.complete_isOk hw.1 hq.written
  · split
    · next hr => exact PortState.complete_isOk hr.1 hq.written
    · split <;> exact ⟨_, rfl⟩

theorem PortState.answer_isOk_of_inv {c : Cfg} {q : PortState} (hq : q.Inv c) (i : Instr) :
    ∃ r, q.answer c i = .ok r := by
  cases i with
  | rxbyte p8 brk b =>
    obtain ⟨r, hr⟩ := PortState.receive_isOk_of_inv hq b
    exact ⟨_, PortState.answer_rxbyte_ok_iff.mpr ⟨r.2, hr, rfl⟩⟩
  | lookup baud | read p8 | reconf p8 | stat p8 => exact ⟨_, rfl⟩

/-- No command stops in a state that meets the invariant. -/
theorem exec_next_of_inv {s : State} (hs : s.Inv) (i : Instr) : ∃ t, exec i s = .next t := by
  cases hp : namedPort i with
  | none =>
    obtain ⟨e, d, hexec⟩ := exec_of_noPort hp s.cfg
    exact ⟨_, hexec s rfl⟩
  | some p =>
    obtain ⟨r, hr⟩ := PortState.answer_isOk_of_inv (hs p) i
    exact ⟨_, (exec_namedPort_next_iff hp).mpr ⟨r.1, r.2, hr, rfl⟩⟩

theorem PortState.receive_of_cap_le {c : Cfg} {q : PortState} (h : c.cap ≤ q.cur) (b : Byte) :
    q.receive c b = .error .accOutOfRange := by
  rw [PortState.receive, if_neg (by omega)]

theorem PortState.receive_of_unwritten_first {c : Cfg} {q : PortState} (hlt : q.cur < c.cap) (hne : q.cur ≠ 0)
    (hread : q.acc.read 0 = none) (b : Byte) : q.receive c b = .error .accUnwritten := by
  have hfirst : (q.acc.write q.cur b).read 0 = none := by rw [q.first_after_write, if_neg hne, hread]
  simp only [PortState.receive, if_pos hlt, hfirst]

/-- RXBYTE stops where its invocation does. -/
theorem exec_rxbyte_of_error {s : State} {p : PortId} {brk : Bool} {b : Byte} {f : Fault}
    (h : (s.port p).receive s.cfg b = .error f) : exec (.rxbyte p.field brk b) s = .fault f := by
  simp only [exec, execRxbyte, portOf_field, h]

/-- Settles O20: the two stops by the two tests `receive` makes, the last clause because every command answers in a
state that meets the invariant. -/
theorem rxbyteStopsOnlyOutsideTheInvariant : Obligations.RxbyteStopsOnlyOutsideTheInvariant := by
  refine ⟨fun s p brk b hcap => ?_, fun s p brk b hlt hne hread => ?_, fun s i f hfault hs => ?_⟩
  · exact exec_rxbyte_of_error (PortState.receive_of_cap_le hcap b)
  · exact exec_rxbyte_of_error (PortState.receive_of_unwritten_first hlt hne hread b)
  · obtain ⟨t, ht⟩ := exec_next_of_inv hs i
    rw [ht] at hfault
    cases hfault

/-- Settles O16: an invocation writes the byte at the cursor, and RXBYTE writes no port but its own. -/
theorem rxbyteFrame : Obligations.RxbyteFrame := by
  intro s t p brk b h
  obtain ⟨q, fl, hq, rfl⟩ := exec_rxbyte_cases h
  have hacc := PortState.receive_acc hq
  refine ⟨?_, fun k hk => ?_, fun r hr => ?_, ?_, ?_, fl.rdata, ?_⟩
  · rw [State.respond_port, State.port_setPort_same, hacc, Memory.read_write_same]
  · rw [State.respond_port, State.port_setPort_same, hacc, Memory.read_write_other _ b hk]
  · rw [State.respond_port, State.port_setPort_other s q hr]
  · simp only [State.respond_cfg, State.setPort_cfg]
  · simp only [State.respond_cmds, State.setPort_cmds]
  · simp only [State.respond_rsps, State.setPort_rsps, okResponse]

/- The counters. -/

/-- The block's increment is the claims' event count. -/
theorem satInc_eq_countOne (v : BitVec 32) : satInc v = Claims.countOne v := by
  have hlt := v.isLt
  have hmax : v = 0xFFFFFFFF#32 ↔ ¬ v.toNat < 2 ^ 32 - 1 := by
    rw [← BitVec.toNat_inj, BitVec.toNat_ofNat]
    omega
  by_cases h : v.toNat < 2 ^ 32 - 1
  · rw [satInc, Claims.countOne, if_pos h, if_neg (fun he => hmax.mp he h)]
  · rw [satInc, Claims.countOne, if_neg h, if_pos (hmax.mpr h)]

theorem le_satInc (v : BitVec 32) : v.toNat ≤ (satInc v).toNat := by
  unfold satInc
  split
  · rw [BitVec.toNat_add, BitVec.toNat_ofNat]
    omega
  · exact Nat.le_refl _

/-- The counters follow the flags an invocation answers with (R128 to R131). -/
theorem PortState.receive_counters {c : Cfg} {q q' : PortState} {b : Byte} {fl : RxFlags}
    (h : q.receive c b = .ok (q', fl)) :
    q'.dropped = (if fl.drop then satInc q.dropped else q.dropped) ∧
    q'.overlong = (if fl.discard then satInc q.overlong else q.overlong) ∧
    fl.drop = (fl.notify && q.slot.isSome) := by
  obtain ⟨-, first, -, ⟨-, -, hc⟩ | ⟨-, -, hc⟩ | ⟨-, -, -, hd⟩ | ⟨-, -, -, ha⟩⟩ := PortState.receive_cases h
  · obtain ⟨f, -, rfl, rfl⟩ := PortState.complete_cases hc
    simp [PortState.ready]
  · obtain ⟨f, -, rfl, rfl⟩ := PortState.complete_cases hc
    simp [PortState.ready]
  · cases hd
    simp
  · cases ha
    simp

/-- The table of R31 for the commands other than RXBYTE, at the port named. -/
theorem PortState.answer_mainline {c : Cfg} {q q' : PortState} {i : Instr} {p : PortId} {d : BitVec 64}
    (hp : namedPort i = some p) (hi : ∀ brk b, i ≠ .rxbyte p.field brk b) (h : q.answer c i = .ok (q', d)) :
    q'.acc = q.acc ∧ q'.dropped = q.dropped ∧ q'.overlong = q.overlong ∧
    (i ≠ .reconf p.field → q'.cur = q.cur) ∧
    (i ≠ .reconf p.field → i ≠ .read p.field → q'.slot = q.slot) := by
  cases i with
  | lookup baud => cases hp
  | rxbyte p8 brk b =>
    obtain rfl := portOf_eq_some hp
    exact absurd rfl (hi brk b)
  | read p8 =>
    obtain rfl := portOf_eq_some hp
    cases h
    exact ⟨rfl, rfl, rfl, fun _ => rfl, fun _ hne => absurd rfl hne⟩
  | reconf p8 =>
    obtain rfl := portOf_eq_some hp
    cases h
    exact ⟨rfl, rfl, rfl, fun hne => absurd rfl hne, fun hne => absurd rfl hne⟩
  | stat p8 =>
    cases h
    exact ⟨rfl, rfl, rfl, fun _ => rfl, fun _ _ => rfl⟩

/-- Settles O25: a port is as it was, or it is the one named and keeps what R31 says. -/
theorem mainlineCommandsFrame : Obligations.MainlineCommandsFrame := by
  intro i s t hi h
  refine ⟨exec_cfg h, exec_cmds h, fun p => ?_⟩
  obtain hport | ⟨hp, d, hd⟩ := exec_port_cases h p
  · rw [hport]
    exact ⟨fun _ => rfl, rfl, rfl, fun _ => rfl, fun _ _ => rfl⟩
  · obtain ⟨hacc, hrest⟩ := PortState.answer_mainline hp (hi p.field) hd
    exact ⟨fun k => by rw [hacc], hrest⟩

/-- Settles O18: an RXBYTE on the port by the flags of its invocation; any other command leaves the port as it is or
keeps its counters. -/
theorem countersFollowTheResponse : Obligations.CountersFollowTheResponse := by
  intro i s t r p h hr
  constructor
  · rintro ⟨brk, b, rfl⟩
    obtain ⟨q, fl, hq, rfl⟩ := exec_rxbyte_cases h
    obtain rfl : { status := .ok, rdata := fl.rdata } = r := by
      simpa only [State.respond_rsps, State.setPort_rsps, List.append_cancel_left_eq, List.cons.injEq, and_true] using hr
    obtain ⟨hdrop, hover, hflag⟩ := PortState.receive_counters hq
    rw [State.respond_port, State.port_setPort_same, hdrop, hover]
    simp [← satInc_eq_countOne, BitVec.getLsbD_eq_getElem, hflag]
  · intro hi
    obtain hport | ⟨hp, d, hd⟩ := exec_port_cases h p
    · rw [hport]
      exact ⟨rfl, rfl⟩
    · obtain ⟨-, hdrop, hover, -⟩ := PortState.answer_mainline hp hi hd
      exact ⟨hdrop, hover⟩

/-- No command decreases a counter of the port it names. -/
theorem PortState.answer_counters_le {c : Cfg} {q q' : PortState} {i : Instr} {d : BitVec 64}
    (h : q.answer c i = .ok (q', d)) :
    q.dropped.toNat ≤ q'.dropped.toNat ∧ q.overlong.toNat ≤ q'.overlong.toNat := by
  cases i with
  | rxbyte p8 brk b =>
    obtain ⟨fl, hfl, -⟩ := PortState.answer_rxbyte_ok_iff.mp h
    obtain ⟨hdrop, hover, -⟩ := PortState.receive_counters hfl
    rw [hdrop, hover]
    constructor <;> split <;> simp only [le_satInc, Nat.le_refl]
  | lookup baud | read p8 | reconf p8 | stat p8 =>
    cases h
    exact ⟨Nat.le_refl _, Nat.le_refl _⟩

/-- Settles O19: a step leaves a port as it is, or leaves there the answer of a command, which decreases no counter. -/
theorem countersNeverDecrease : Obligations.CountersNeverDecrease := by
  intro s t p h
  obtain hport | ⟨i, d, hd⟩ := step_port_cases h p
  · rw [hport]
    exact ⟨Nat.le_refl _, Nat.le_refl _⟩
  · exact PortState.answer_counters_le hd

/- The three ports are independent. -/

/-- Settles O34: a command that names a port is its answer there, a function of that port and the configuration;
LOOKUP names none. -/
theorem portsDoNotInterfere : Obligations.PortsDoNotInterfere := by
  constructor
  · intro i p s s' t hp hcfg hport h
    obtain ⟨q, d, hq, rfl⟩ := (exec_namedPort_next_iff hp).mp h
    have hother : ∀ u : State, ∀ r, r ≠ p → ((u.setPort p q).respond .ok d).port r = u.port r := fun u r hr => by
      rw [State.respond_port, State.port_setPort_other u q hr]
    have h' : exec i s' = .next ((s'.setPort p q).respond .ok d) :=
      (exec_namedPort_next_iff hp).mpr ⟨q, d, by rw [hport, hcfg, hq], rfl⟩
    have hsame : ∀ u : State, ((u.setPort p q).respond .ok d).port p = q := fun u => by
      rw [State.respond_port, State.port_setPort_same]
    have hrsps : ∀ u : State, ((u.setPort p q).respond .ok d).rsps = u.rsps ++ [okResponse d] := fun u => by
      simp only [State.respond_rsps, State.setPort_rsps, okResponse]
    exact ⟨hother s, _, okResponse d, h', (hsame s').trans (hsame s).symm, hother s', hrsps s, hrsps s'⟩
  · intro baud s s' t hcfg h
    obtain ⟨e, d, hexec⟩ := exec_of_noPort (i := .lookup baud) rfl s.cfg
    rw [hexec s rfl] at h
    cases h
    exact ⟨s.respond_port e d, _, { status := e, rdata := d }, hexec s' hcfg, rfl, rfl⟩

@[simp] theorem execAll_nil (s : State) : execAll [] s = .next s := rfl

theorem execAll_cons_next_iff {i : Instr} {is : List Instr} {s t : State} :
    execAll (i :: is) s = .next t ↔ ∃ u, exec i s = .next u ∧ execAll is u = .next t := by
  cases h : exec i s <;> simp [execAll, h]

theorem execAll_pair_next_iff {i j : Instr} {s t : State} :
    execAll [i, j] s = .next t ↔ ∃ u, exec i s = .next u ∧ exec j u = .next t := by
  simp only [execAll_cons_next_iff, execAll_nil, Host.Outcome.next.injEq, exists_eq_right]

/-- Two commands on different ports are their two answers, each from the port as it stands before both. -/
theorem execAll_two_ports_next_iff {i j : Instr} {p r : PortId} (hi : namedPort i = some p) (hj : namedPort j = some r)
    (hpr : p ≠ r) {s t : State} :
    execAll [i, j] s = .next t ↔
      ∃ q d q' d', (s.port p).answer s.cfg i = .ok (q, d) ∧ (s.port r).answer s.cfg j = .ok (q', d') ∧
        t = (((s.setPort p q).respond .ok d).setPort r q').respond .ok d' := by
  have hkept : ∀ q d, ((s.setPort p q).respond .ok d).port r = s.port r := fun q d => by
    rw [State.respond_port, State.port_setPort_other s q hpr.symm]
  simp only [execAll_pair_next_iff, exec_namedPort_next_iff hi, exec_namedPort_next_iff hj]
  constructor
  · rintro ⟨_, ⟨q, d, hq, rfl⟩, q', d', hq', rfl⟩
    rw [hkept, State.respond_cfg, State.setPort_cfg] at hq'
    exact ⟨q, d, q', d', hq, hq', rfl⟩
  · rintro ⟨q, d, q', d', hq, hq', rfl⟩
    refine ⟨_, ⟨q, d, hq, rfl⟩, q', d', ?_, rfl⟩
    rw [hkept, State.respond_cfg, State.setPort_cfg, hq']

/-- Settles O35: in either order each command gives its answer from the port as it stands before both. -/
theorem commandsOnDifferentPortsCommute : Obligations.CommandsOnDifferentPortsCommute := by
  intro i j p r s t hi hj hpr h
  obtain ⟨q, d, q', d', hq, hq', rfl⟩ := (execAll_two_ports_next_iff hi hj hpr).mp h
  refine ⟨_, okResponse d, okResponse d',
    (execAll_two_ports_next_iff hj hi hpr.symm).mpr ⟨q', d', q, d, hq', hq, rfl⟩, fun x => ?_, ?_, ?_⟩
  · simp only [State.respond_port, State.port_setPort]
    by_cases hxp : x = p
    · rw [if_pos hxp, if_neg (hxp ▸ hpr), if_pos hxp]
    · rw [if_neg hxp, if_neg hxp]
  all_goals
    simp only [State.respond_rsps, State.setPort_rsps, okResponse, List.append_assoc, List.cons_append, List.nil_append]

/- Registers and reset values. -/

theorem PortState.registers_of_empty {q : PortState} (h : q.slot = none) :
    q.ready = false ∧ q.slotLen = 0#4 ∧ ∀ k, q.slotDat k = 0#8 := by
  simp only [PortState.ready, PortState.slotLen, PortState.slotDat, h, Option.isSome_none, implies_true, and_self]

theorem RxFrame.Valid.len_le {c : Cfg} {f : RxFrame} (h : f.Valid c) : f.len ≤ 7 := by
  obtain ⟨⟨-, hlen⟩ | ⟨-, hlen⟩, -⟩ := h
  · exact Nat.le_of_eq hlen
  · exact Nat.le_trans (Nat.le_of_eq hlen) (by decide)

/-- A frame that can exist is determined by its length register and its seven data registers. -/
theorem RxFrame.eq_of_registers {c : Cfg} {f g : RxFrame} (hf : f.Valid c) (hg : g.Valid c)
    (hlen : BitVec.ofNat 4 f.len = BitVec.ofNat 4 g.len) (hdat : ∀ k, k < 7 → f.byte k = g.byte k) : f = g := by
  have hlen7f := hf.len_le
  have hlen7g := hg.len_le
  obtain ⟨-, hpayf⟩ := hf
  obtain ⟨-, hpayg⟩ := hg
  have hlen' : f.len = g.len := by
    have h := congrArg BitVec.toNat hlen
    rw [BitVec.toNat_ofNat, BitVec.toNat_ofNat] at h
    omega
  have hbytes : f.id :: f.payload = g.id :: g.payload := by
    refine List.ext_getElem (by simp only [List.length_cons]; omega) fun k hkf hkg => ?_
    have hk7 : k < 7 := by rw [List.length_cons] at hkf; omega
    have hk := hdat k hk7
    rwa [RxFrame.byte_eq_getD hpayf, RxFrame.byte_eq_getD hpayg, List.getD_eq_getElem?_getD,
      List.getD_eq_getElem?_getD, List.getElem?_eq_getElem hkf, List.getElem?_eq_getElem hkg] at hk
  obtain ⟨hid, hpay⟩ := List.cons.inj hbytes
  cases f
  cases g
  simp only at hid hpay hlen'
  rw [hid, hpay, hlen']

/-- Settles O42: `ready` tells an empty slot from a full one, and the other registers one frame from another. -/
theorem slotRegistersHoldTheSlot : Obligations.SlotRegistersHoldTheSlot := by
  refine ⟨fun q => PortState.registers_of_empty, fun c q q' hq hq' hready hlen hdat => ?_⟩
  unfold PortState.ready at hready
  unfold PortState.slotLen at hlen
  unfold PortState.slotDat at hdat
  cases hf : q.slot with
  | none => cases hg : q'.slot with
    | none => rfl
    | some g =>
      rw [hf, hg] at hready
      cases hready
  | some f => cases hg : q'.slot with
    | none =>
      rw [hf, hg] at hready
      cases hready
    | some g =>
      simp only [hf, hg] at hlen hdat
      rw [RxFrame.eq_of_registers (hq f hf) (hq' g hg) hlen hdat]

theorem cap_le_two_pow_curWidth (c : Cfg) : c.cap ≤ 2 ^ curWidth c := by
  have hlt : c.cap - 1 < 2 ^ curWidth c := Nat.lt_log2_self
  omega

theorem two_pow_pred_curWidth_lt_cap (c : Cfg) : 2 ^ (curWidth c - 1) < c.cap := by
  have hcap := c.cap_ge
  have hle : 2 ^ (curWidth c - 1) ≤ c.cap - 1 := Nat.log2_self_le (by omega)
  omega

/-- Settles O43: the width by the logarithm's two bounds, and the cursor is below `CAP` by item 1 of R35. -/
theorem cursorFitsItsRegister : Obligations.CursorFitsItsRegister := by
  refine ⟨fun c => ⟨cap_le_two_pow_curWidth c, two_pow_pred_curWidth_lt_cap c⟩, fun s p hs => ?_⟩
  rw [PortState.curReg, BitVec.toNat_ofNat]
  exact Nat.mod_eq_of_lt (Nat.lt_of_lt_of_le (hs p).curBound (cap_le_two_pow_curWidth s.cfg))

/-- Settles O28: every port after reset is `PortState.reset`. -/
theorem resetValues : Obligations.ResetValues := by
  refine ⟨fun c p => ?_, Config.hardware, rfl⟩
  rw [State.resetWith_port]
  obtain ⟨hready, hlen, hdat⟩ := PortState.registers_of_empty (q := PortState.reset) rfl
  exact ⟨rfl, rfl, hready, hlen, hdat, rfl, rfl, Memory.read_nil, rfl⟩

end Sys2Proof.Machine

/-! SUPPORT. The memory of 20_memory.md: two commands in a row on one port, READ against a completing RXBYTE (R61),
and the order of the bytes in the accumulation buffer (R53). -/

namespace Sys2Proof.Machine

/- Two commands on one port: the second answers from the port as the first leaves it. -/

theorem execAll_same_port_next {i j : Instr} {p : PortId} {s : State} {q q' : PortState} {d d' : BitVec 64}
    (hi : namedPort i = some p) (hj : namedPort j = some p) (hq : (s.port p).answer s.cfg i = .ok (q, d))
    (hq' : q.answer s.cfg j = .ok (q', d')) :
    ∃ t, execAll [i, j] s = .next t ∧ t.port p = q' ∧ t.rsps = s.rsps ++ [okResponse d, okResponse d'] := by
  have hfirst := (exec_namedPort_next_iff hi).mpr ⟨q, d, hq, rfl⟩
  refine ⟨_, execAll_pair_next_iff.mpr ⟨_, hfirst, (exec_namedPort_next_iff hj).mpr ⟨q', d', ?_, rfl⟩⟩, ?_, ?_⟩
  · rw [State.respond_port, State.port_setPort_same, State.respond_cfg, State.setPort_cfg, hq']
  · rw [State.respond_port, State.port_setPort_same]
  · simp only [State.respond_rsps, State.setPort_rsps, okResponse, List.append_assoc, List.cons_append, List.nil_append]

@[simp] theorem namedPort_read_field (p : PortId) : namedPort (.read p.field) = some p := portOf_field p

@[simp] theorem namedPort_rxbyte_field (p : PortId) (brk : Bool) (b : Byte) :
    namedPort (.rxbyte p.field brk b) = some p := portOf_field p

theorem PortState.answer_read_of_pending {q : PortState} {f : RxFrame} (h : q.slot = some f) (c : Cfg) (p8 : Byte) :
    q.answer c (.read p8) = .ok ({ q with slot := none }, f.pack) := by
  rw [PortState.answer, h, Option.elim_some]

theorem PortState.answer_read_of_empty {q : PortState} (h : q.slot = none) (c : Cfg) (p8 : Byte) :
    q.answer c (.read p8) = .ok ({ q with slot := none }, 0#64) := by
  rw [PortState.answer, h, Option.elim_none]

/-- Settles O22: the first READ empties the slot, so the second finds none. -/
theorem readTwiceReturnsTheFrameOnce : Obligations.ReadTwiceReturnsTheFrameOnce := by
  intro s p f hf
  obtain ⟨t, ht, hport, hrsps⟩ := execAll_same_port_next (namedPort_read_field p) (namedPort_read_field p)
    (PortState.answer_read_of_pending hf s.cfg p.field) (PortState.answer_read_of_empty rfl s.cfg p.field)
  exact ⟨t, ht, hrsps, by rw [hport]⟩

/- A completion after the pending frame was read (R61). -/

/-- A completion delivers its frame whatever the slot holds; with an empty slot nothing is dropped (R129). -/
theorem PortState.complete_of_emptied {q q' : PortState} {acc : Memory} {n : Nat} {fl : RxFlags}
    (h : q.complete acc n = .ok (q', fl)) :
    PortState.complete { q with slot := none } acc n =
      .ok ({ q' with dropped := q.dropped }, { notify := true, drop := false, discard := false }) := by
  obtain ⟨f, hf, rfl, -⟩ := PortState.complete_cases h
  simp [PortState.complete, hf, PortState.ready]

/-- An invocation that notifies leaves a frame in the slot. -/
theorem PortState.receive_notify_slot {c : Cfg} {q q' : PortState} {b : Byte} {fl : RxFlags}
    (h : q.receive c b = .ok (q', fl)) (hn : fl.notify = true) : ∃ g, q'.slot = some g := by
  obtain ⟨-, first, -, ⟨-, -, hc⟩ | ⟨-, -, hc⟩ | ⟨-, -, -, hd⟩ | ⟨-, -, -, ha⟩⟩ := PortState.receive_cases h
  · obtain ⟨g, -, rfl, -⟩ := PortState.complete_cases hc
    exact ⟨g, rfl⟩
  · obtain ⟨g, -, rfl, -⟩ := PortState.complete_cases hc
    exact ⟨g, rfl⟩
  · cases hd; cases hn
  · cases ha; cases hn

/-- An invocation that notifies delivers the same frame with the slot emptied first, and counts no drop. -/
theorem PortState.receive_of_emptied {c : Cfg} {q q' : PortState} {b : Byte} {fl : RxFlags}
    (h : q.receive c b = .ok (q', fl)) (hn : fl.notify = true) :
    PortState.receive c { q with slot := none } b =
      .ok ({ q' with dropped := q.dropped }, { notify := true, drop := false, discard := false }) := by
  obtain ⟨hlt, first, hfirst, hrow⟩ := PortState.receive_cases h
  rw [PortState.receive_of_first (q := { q with slot := none }) hlt hfirst]
  obtain ⟨hcur, hid, hc⟩ | ⟨hcur, hid, hc⟩ | ⟨-, -, -, hd⟩ | ⟨-, -, -, ha⟩ := hrow
  · rw [if_pos ⟨hcur, hid⟩]
    exact PortState.complete_of_emptied hc
  · have hne : q.cur + 1 ≠ writeLen := by rw [hcur]; decide
    rw [if_neg fun hw => hne hw.1, if_pos ⟨hcur, hid⟩]
    exact PortState.complete_of_emptied hc
  · cases hd; cases hn
  · cases ha; cases hn

/-- The response of an RXBYTE tells its flags (R79). -/
theorem RxFlags.rdata_inj {f g : RxFlags} (h : f.rdata = g.rdata) : f = g := by
  have hnotify : f.notify = g.notify := by rw [← f.rdata_notify, ← g.rdata_notify, h]
  have hdrop : f.drop = g.drop := by rw [← f.rdata_drop, ← g.rdata_drop, h]
  have hdiscard : f.discard = g.discard := by rw [← f.rdata_discard, ← g.rdata_discard, h]
  cases f
  cases g
  simp only at hnotify hdrop hdiscard
  rw [hnotify, hdrop, hdiscard]

/-- Settles O36: READ first empties the slot the completion then fills; RXBYTE first drops the frame it finds there. -/
theorem readAgainstCompletionInBothOrders : Obligations.ReadAgainstCompletionInBothOrders := by
  intro s v p brk b f hf hv hrsps
  obtain ⟨q, fl, hq, rfl⟩ := exec_rxbyte_cases hv
  have hrdata : fl.rdata = 3#64 := by simpa [okResponse] using hrsps
  obtain rfl : fl = { notify := true, drop := true, discard := false } := RxFlags.rdata_inj hrdata
  obtain ⟨g, hg⟩ := PortState.receive_notify_slot hq rfl
  obtain ⟨hdropped, -, -⟩ := PortState.receive_counters hq
  obtain ⟨t, ht, htport, htrsps⟩ := execAll_same_port_next (namedPort_read_field p) (namedPort_rxbyte_field p brk b)
    (PortState.answer_read_of_pending hf s.cfg p.field)
    (PortState.answer_rxbyte_ok_iff.mpr ⟨_, PortState.receive_of_emptied hq rfl, rfl⟩)
  obtain ⟨u, hu, huport, hursps⟩ := execAll_same_port_next (namedPort_rxbyte_field p brk b) (namedPort_read_field p)
    (PortState.answer_rxbyte_ok_iff.mpr ⟨_, hq, rfl⟩) (PortState.answer_read_of_pending hg s.cfg p.field)
  refine ⟨g, t, u, ?_, ht, htrsps, ?_, ?_, hu, hursps, ?_, ?_⟩
  · rw [State.respond_port, State.port_setPort_same, hg]
  · rw [htport]
  · rw [htport, hg]
  · rw [huport, ← satInc_eq_countOne]
    exact hdropped
  · rw [huport]

/- The order of the bytes in the buffer (R53). -/

/-- An invocation moves the cursor by one, or back to 0. -/
theorem PortState.receive_cur {c : Cfg} {q q' : PortState} {b : Byte} {fl : RxFlags}
    (h : q.receive c b = .ok (q', fl)) : q'.cur = q.cur + 1 ∨ q'.cur = 0 := by
  obtain ⟨-, first, -, ⟨-, -, hc⟩ | ⟨-, -, hc⟩ | ⟨-, -, -, hd⟩ | ⟨-, -, -, ha⟩⟩ := PortState.receive_cases h
  · obtain ⟨f, -, rfl, -⟩ := PortState.complete_cases hc
    exact .inr rfl
  · obtain ⟨f, -, rfl, -⟩ := PortState.complete_cases hc
    exact .inr rfl
  · cases hd
    exact .inr rfl
  · cases ha
    exact .inl rfl

/-- RXBYTE writes its byte at the cursor, which it moves up by at most one. -/
theorem exec_rxbyte_acc_cur {s t : State} {p : PortId} {brk : Bool} {b : Byte}
    (h : exec (.rxbyte p.field brk b) s = .next t) :
    (t.port p).acc = (s.port p).acc.write (s.port p).cur b ∧ (t.port p).cur ≤ (s.port p).cur + 1 := by
  obtain ⟨q, fl, hq, rfl⟩ := exec_rxbyte_cases h
  rw [State.respond_port, State.port_setPort_same]
  refine ⟨PortState.receive_acc hq, ?_⟩
  obtain hcur | hcur := PortState.receive_cur hq <;> omega

theorem execAll_receiveAll_cons_next_iff {p : PortId} {b : Byte} {bs : List Byte} {s t : State} :
    execAll (receiveAll p (b :: bs)) s = .next t ↔
      ∃ u, exec (.rxbyte p.field false b) s = .next u ∧ execAll (receiveAll p bs) u = .next t :=
  execAll_cons_next_iff

/-- The cursor moves up by at most the number of bytes received. -/
theorem receiveAll_cur_le {p : PortId} {bs : List Byte} {s t : State}
    (h : execAll (receiveAll p bs) s = .next t) : (t.port p).cur ≤ (s.port p).cur + bs.length := by
  induction bs generalizing s with
  | nil =>
    cases h
    exact Nat.le_refl _
  | cons b bs ih =>
    obtain ⟨u, hu, ht⟩ := execAll_receiveAll_cons_next_iff.mp h
    obtain ⟨-, hcur⟩ := exec_rxbyte_acc_cur hu
    have hrest := ih ht
    rw [List.length_cons]
    omega

/-- Bytes received inside one accumulation stand in the buffer from the cursor on, in arrival order, over the bytes
that stood below it. -/
theorem receiveAll_acc {p : PortId} {bs : List Byte} {s t : State} (h : execAll (receiveAll p bs) s = .next t)
    (hcur : (t.port p).cur = (s.port p).cur + bs.length) :
    (∀ k < (s.port p).cur, (t.port p).acc.read k = (s.port p).acc.read k) ∧
    ∀ k < bs.length, (t.port p).acc.read ((s.port p).cur + k) = bs[k]? := by
  induction bs generalizing s with
  | nil =>
    cases h
    exact ⟨fun _ _ => rfl, nofun⟩
  | cons b bs ih =>
    obtain ⟨u, hu, ht⟩ := execAll_receiveAll_cons_next_iff.mp h
    obtain ⟨hacc, hle⟩ := exec_rxbyte_acc_cur hu
    have hrest := receiveAll_cur_le ht
    rw [List.length_cons] at hcur
    have hucur : (u.port p).cur = (s.port p).cur + 1 := by omega
    obtain ⟨hbelow, hfrom⟩ := ih ht (by omega)
    rw [hucur, hacc] at hbelow
    rw [hucur] at hfrom
    refine ⟨fun k hk => ?_, fun k hk => ?_⟩
    · rw [hbelow k (by omega), Memory.read_write_other _ b (by omega)]
    · cases k with
      | zero => rw [Nat.add_zero, hbelow _ (by omega), Memory.read_write_same, List.getElem?_cons_zero]
      | succ k =>
        rw [List.getElem?_cons_succ, ← hfrom k (by simpa using hk)]
        congr 1
        omega

/-- Settles O41: an accumulation that starts on an `Idle` port fills the buffer from index 0. -/
theorem bytesKeepArrivalOrder : Obligations.BytesKeepArrivalOrder := by
  intro s t p bs hidle h hcur k hk
  obtain ⟨-, hfrom⟩ := receiveAll_acc h (by rw [hidle, hcur, Nat.zero_add])
  rw [← hfrom k hk, hidle, Nat.zero_add]

end Sys2Proof.Machine

/-! SUPPORT. The commands and responses of 30_encoding.md: decoder and encoder against each other (R71 to R76), the
response word and its values (R78 to R80), the pseudo-commands (R82). -/

namespace Sys2Proof

/- The rows of the opcode table. -/

/-- The opcode of a row (R73). -/
def OpRow.opcode : OpRow → Byte
  | .lookup => 0x01#8
  | .rxbyte => 0x02#8
  | .read   => 0x03#8
  | .reconf => 0x04#8
  | .stat   => 0x05#8

theorem OpRow.opcode_inj {r r' : OpRow} (h : r.opcode = r'.opcode) : r = r' := by
  revert h
  cases r <;> cases r' <;> decide

theorem OpRow.op_of_holds {r : OpRow} {w : CmdWord} (h : r.holds w = true) : w.op = r.opcode := by
  cases r with
  | lookup => exact ((OpRow.holds_lookup w).mp h).1
  | rxbyte => exact ((OpRow.holds_rxbyte w).mp h).1
  | read => exact ((OpRow.holds_read w).mp h).1
  | reconf => exact ((OpRow.holds_reconf w).mp h).1
  | stat => exact ((OpRow.holds_stat w).mp h).1

/-- Settles O4: a row fixes the opcode of its words, and no two rows have the same. -/
theorem opcodeRowsAreDisjoint : Obligations.OpcodeRowsAreDisjoint := by
  intro w r r' h h'
  exact OpRow.opcode_inj (by rw [← OpRow.op_of_holds h, ← OpRow.op_of_holds h'])

theorem OpRow.mem_all (r : OpRow) : r ∈ OpRow.all := by
  cases r <;> decide

/-- The first row found is the only one there is. -/
theorem rowOf_eq_some_iff {w : CmdWord} {r : OpRow} : rowOf? w = some r ↔ r.holds w = true := by
  constructor
  · exact List.find?_some (p := fun r => OpRow.holds r w)
  · intro h
    have hfound : (rowOf? w).isSome = true := List.find?_isSome.mpr ⟨r, r.mem_all, h⟩
    obtain ⟨r', hr'⟩ := Option.isSome_iff_exists.mp hfound
    obtain rfl := opcodeRowsAreDisjoint w r r' h (List.find?_some (p := fun r => OpRow.holds r w) hr')
    exact hr'

/- The decoder, by the row a word belongs to. -/

theorem decode_eq_command_iff {w : CmdWord} {i : Instr} :
    decode w = .command i ↔ ∃ r : OpRow, r.holds w = true ∧ r.instr w = i := by
  simp only [← rowOf_eq_some_iff, decode]
  cases rowOf? w <;> simp

theorem decode_eq_illegal_iff {w : CmdWord} :
    (∃ e, decode w = .illegal e) ↔ ¬ ∃ r : OpRow, r.holds w = true := by
  simp only [← rowOf_eq_some_iff, decode]
  cases rowOf? w <;> simp

/- Decoding what was encoded. -/

theorem rowOf_holds_encode (i : Instr) : (Laws.EncodedInItsRow.rowOf i).holds (encode i) = true := by
  cases i with
  | lookup baud => exact Laws.EncodedInItsRow.lookup baud
  | rxbyte p brk b => exact Laws.EncodedInItsRow.rxbyte p brk b
  | read p => exact Laws.EncodedInItsRow.read p
  | reconf p => exact Laws.EncodedInItsRow.reconf p
  | stat p => exact Laws.EncodedInItsRow.stat p

theorem rowOf_instr_encode (i : Instr) : (Laws.EncodedInItsRow.rowOf i).instr (encode i) = i := by
  cases i <;> simp [Laws.EncodedInItsRow.rowOf, OpRow.instr, encode]

/-- Settles O2: the word of a command is in the command's row, which reads the operands back. -/
theorem decodeOfEncode : Obligations.DecodeOfEncode := fun i =>
  decode_eq_command_iff.mpr ⟨_, rowOf_holds_encode i, rowOf_instr_encode i⟩

/- Encoding what was decoded. -/

/-- The mask of the RXBYTE row selects the reserved bits `arg[31:9]` (R74, R75). -/
theorem rxMask_eq_zero_iff (arg : BitVec 32) : arg &&& 0xFFFFFE00#32 = 0#32 ↔ arg.extractLsb' 9 23 = 0#23 := by
  have hsplit : arg.extractLsb' 9 23 ++ arg.extractLsb' 0 9 = arg :=
    (BitVec.extractLsb'_append_extractLsb'_eq_extractLsb' rfl).trans BitVec.extractLsb'_eq_self
  have hmask : 0xFFFFFE00#32 = BitVec.allOnes 23 ++ 0#9 := by decide
  have hzero : 0#32 = 0#23 ++ 0#9 := by decide
  conv => lhs; rw [← hsplit, hmask, hzero]
  rw [BitVec.and_append, BitVec.and_allOnes, BitVec.and_zero]
  exact BitVec.append_left_inj 0#9

/-- An argument without reserved bits is the RXBYTE operand of its two fields. -/
theorem rxArg_eta {arg : BitVec 32} (h : arg.extractLsb' 9 23 = 0#23) : rxArg (brkOf arg) (byteOf arg) = arg := by
  have hbits : arg.toNat / 2 ^ 9 % 2 ^ 23 = 0 := by
    rw [← Nat.shiftRight_eq_div_pow, ← BitVec.extractLsb'_toNat, h, BitVec.toNat_ofNat, Nat.zero_mod]
  have hlt := arg.isLt
  apply BitVec.eq_of_toNat_eq
  rw [rxArg_toNat, brkOf_eq, byteOf_toNat]
  by_cases hbrk : arg.toNat / 2 ^ 8 % 2 = 1
  · rw [decide_eq_true hbrk, Bool.toNat_true]
    omega
  · rw [decide_eq_false hbrk, Bool.toNat_false]
    omega

/-- The command a row reads from one of its words has that word. -/
theorem OpRow.encode_instr {r : OpRow} {w : CmdWord} (h : r.holds w = true) : encode (r.instr w) = w := by
  have hfields := CmdWord.ofFields_eta w
  cases r with
  | lookup =>
    obtain ⟨hop, hport⟩ := (OpRow.holds_lookup w).mp h
    rwa [hop, hport] at hfields
  | rxbyte =>
    obtain ⟨hop, harg⟩ := (OpRow.holds_rxbyte w).mp h
    rwa [hop, ← rxArg_eta ((rxMask_eq_zero_iff w.arg).mp harg)] at hfields
  | read =>
    obtain ⟨hop, harg⟩ := (OpRow.holds_read w).mp h
    rwa [hop, harg] at hfields
  | reconf =>
    obtain ⟨hop, harg⟩ := (OpRow.holds_reconf w).mp h
    rwa [hop, harg] at hfields
  | stat =>
    obtain ⟨hop, harg⟩ := (OpRow.holds_stat w).mp h
    rwa [hop, harg] at hfields

/-- Settles O3: the word is in the row that decoded it. -/
theorem encodeOfDecode : Obligations.EncodeOfDecode := by
  intro w i h
  obtain ⟨r, hr, rfl⟩ := decode_eq_command_iff.mp h
  exact OpRow.encode_instr hr

/-- Settles O1: each word is evaluated. -/
theorem tableWordsDecode : Obligations.TableWordsDecode := by
  unfold Obligations.TableWordsDecode
  decide

/- The illegal words of R76. -/

theorem exists_holds_iff (w : CmdWord) :
    (∃ r : OpRow, r.holds w = true) ↔
      (w.op = 0x01#8 ∧ w.port = 0x00#8) ∨ (w.op = 0x02#8 ∧ w.arg.extractLsb' 9 23 = 0#23) ∨
      ((w.op = 0x03#8 ∨ w.op = 0x04#8 ∨ w.op = 0x05#8) ∧ w.arg = 0#32) := by
  constructor
  · rintro ⟨r, hr⟩
    cases r with
    | lookup => exact .inl ((OpRow.holds_lookup w).mp hr)
    | rxbyte =>
      obtain ⟨hop, harg⟩ := (OpRow.holds_rxbyte w).mp hr
      exact .inr (.inl ⟨hop, (rxMask_eq_zero_iff w.arg).mp harg⟩)
    | read =>
      obtain ⟨hop, harg⟩ := (OpRow.holds_read w).mp hr
      exact .inr (.inr ⟨.inl hop, harg⟩)
    | reconf =>
      obtain ⟨hop, harg⟩ := (OpRow.holds_reconf w).mp hr
      exact .inr (.inr ⟨.inr (.inl hop), harg⟩)
    | stat =>
      obtain ⟨hop, harg⟩ := (OpRow.holds_stat w).mp hr
      exact .inr (.inr ⟨.inr (.inr hop), harg⟩)
  · rintro (h | ⟨hop, harg⟩ | ⟨hop | hop | hop, harg⟩)
    · exact ⟨.lookup, (OpRow.holds_lookup w).mpr h⟩
    · exact ⟨.rxbyte, (OpRow.holds_rxbyte w).mpr ⟨hop, (rxMask_eq_zero_iff w.arg).mpr harg⟩⟩
    · exact ⟨.read, (OpRow.holds_read w).mpr ⟨hop, harg⟩⟩
    · exact ⟨.reconf, (OpRow.holds_reconf w).mpr ⟨hop, harg⟩⟩
    · exact ⟨.stat, (OpRow.holds_stat w).mpr ⟨hop, harg⟩⟩

/-- An opcode is beyond the five of R73, 0, or one of the five. -/
theorem op_cases (op : Byte) :
    6 ≤ op.toNat ∨ op = 0x00#8 ∨ op = 0x01#8 ∨ op = 0x02#8 ∨ op = 0x03#8 ∨ op = 0x04#8 ∨ op = 0x05#8 := by
  simp only [← BitVec.toNat_inj, BitVec.toNat_ofNat]
  omega

/-- R76 names exactly the words of no row. -/
theorem illegalWord_iff (w : CmdWord) : Claims.IllegalWord w ↔ ¬ ∃ r : OpRow, r.holds w = true := by
  rw [exists_holds_iff, Claims.IllegalWord]
  obtain h | h | h | h | h | h | h := op_cases w.op
  · have hne (n : Nat) (hn : n < 6) : w.op ≠ BitVec.ofNat 8 n := by
      intro he
      rw [he, BitVec.toNat_ofNat] at h
      omega
    simp [h, hne]
  all_goals simp [h]

end Sys2Proof

namespace Sys2Proof.Machine

theorem step_of_illegal {s : State} {w : CmdWord} {rest : List CmdWord} {e : Illegal} (h : s.cmds = w :: rest)
    (hw : decode w = .illegal e) : step s = .next (State.answerIllegal { s with cmds := rest }) := by
  simp only [step, State.takeCommand_cons h, hw]

/-- Settles O5: the illegal words are those of no row, and the step answers each by `State.answerIllegal`. -/
theorem illegalWordsAreAnswered : Obligations.IllegalWordsAreAnswered := by
  have hdecode : ∀ w, (∃ e, decode w = .illegal e) ↔ Claims.IllegalWord w := fun w => by
    rw [decode_eq_illegal_iff, illegalWord_iff]
  refine ⟨hdecode, fun s w rest hs hw => ?_⟩
  obtain ⟨e, he⟩ := (hdecode w).mpr hw
  exact step_of_illegal hs he

/- The break bit (R77). -/

theorem exec_rxbyte_brk (p8 : Byte) (brk brk' : Bool) (b : Byte) (s : State) :
    exec (.rxbyte p8 brk b) s = exec (.rxbyte p8 brk' b) s := rfl

theorem step_rxbyte_word (s : State) (rest : List CmdWord) (p8 : Byte) (brk : Bool) (b : Byte) :
    step { s with cmds := encode (.rxbyte p8 brk b) :: rest } = exec (.rxbyte p8 brk b) { s with cmds := rest } :=
  step_of_command rfl (decodeOfEncode _)

/-- Settles O15: both words decode to the command, which does not look at `brk`. -/
theorem breakBitHasNoEffect : Obligations.BreakBitHasNoEffect := by
  intro s rest p8 b
  calc step { s with cmds := encode (.rxbyte p8 true b) :: rest }
    _ = exec (.rxbyte p8 true b) { s with cmds := rest } := step_rxbyte_word s rest p8 true b
    _ = exec (.rxbyte p8 false b) { s with cmds := rest } := exec_rxbyte_brk p8 true false b _
    _ = step { s with cmds := encode (.rxbyte p8 false b) :: rest } := (step_rxbyte_word s rest p8 false b).symm

/- Responses (R78 to R80). -/

/-- Settles O6: the word is the status code before `rdata`. -/
theorem responseWordLayout : Obligations.ResponseWordLayout := by
  rintro ⟨status, rdata⟩
  refine ⟨BitVec.extractLsb'_append_eq_left, BitVec.extractLsb'_append_eq_right, ?_⟩
  cases status <;> rfl

theorem PortState.phase_eq_idle_iff (q : PortState) : q.phase = .idle ↔ q.cur = 0 := by
  unfold PortState.phase
  split <;> simp_all

/-- The `rdata` of a completion (R80). -/
theorem PortState.complete_rdata {q q' : PortState} {acc : Memory} {n : Nat} {fl : RxFlags}
    (h : q.complete acc n = .ok (q', fl)) : q'.cur = 0 ∧ (fl.rdata = 1#64 ∨ fl.rdata = 3#64) := by
  obtain ⟨f, -, rfl, rfl⟩ := PortState.complete_cases h
  rw [RxFlags.rdata_complete]
  by_cases hslot : q.slot = none
  · exact ⟨rfl, .inl (if_pos hslot)⟩
  · exact ⟨rfl, .inr (if_neg hslot)⟩

/-- The `rdata` of an invocation, with what it does to the cursor (R80, R133). -/
theorem PortState.receive_rdata {c : Cfg} {q q' : PortState} {b : Byte} {fl : RxFlags}
    (h : q.receive c b = .ok (q', fl)) :
    (q'.cur ≠ 0 ∧ fl.rdata = 0#64) ∨ (q'.cur = 0 ∧ (fl.rdata = 1#64 ∨ fl.rdata = 3#64 ∨ fl.rdata = 4#64)) := by
  obtain ⟨-, first, -, ⟨-, -, hc⟩ | ⟨-, -, hc⟩ | ⟨-, -, -, hd⟩ | ⟨-, -, -, ha⟩⟩ := PortState.receive_cases h
  · obtain ⟨hcur, hrdata⟩ := PortState.complete_rdata hc
    exact .inr ⟨hcur, hrdata.imp_right .inl⟩
  · obtain ⟨hcur, hrdata⟩ := PortState.complete_rdata hc
    exact .inr ⟨hcur, hrdata.imp_right .inl⟩
  · cases hd
    exact .inr ⟨rfl, .inr (.inr (by decide))⟩
  · cases ha
    exact .inl ⟨Nat.succ_ne_zero _, by decide⟩

/-- Settles O17: the response is that of one receive invocation. -/
theorem rxbyteResponseValues : Obligations.RxbyteResponseValues := by
  intro s t p brk b h
  obtain ⟨q, fl, hq, rfl⟩ := exec_rxbyte_cases h
  refine ⟨fl.rdata, by rw [State.respond_rsps, State.setPort_rsps, okResponse], ?_⟩
  rw [State.respond_port, State.port_setPort_same, PortState.phase_eq_idle_iff]
  obtain ⟨hcur, hrdata⟩ | ⟨hcur, hrdata | hrdata | hrdata⟩ := PortState.receive_rdata hq
  all_goals simp [hcur, hrdata]

/- The pseudo-commands of R82, with operands written as numbers. -/

@[simp] theorem portInRange_toNat (p : Byte) : portInRange p.toNat = true :=
  decide_eq_true (Nat.le_of_lt_succ p.isLt)

@[simp] theorem byteInRange_toNat (b : Byte) : byteInRange b.toNat = true :=
  decide_eq_true (Nat.le_of_lt_succ b.isLt)

theorem assembleCmd_of_wellFormed (c : Cfg) {a : AsmCmd} (h : a.wellFormed = true) :
    assembleCmd c a = some (expandCmd c a) := if_pos h

theorem map_ofNat_map_toNat (bs : List Byte) : (bs.map BitVec.toNat).map (BitVec.ofNat 8) = bs := by
  simp [Function.comp_def]

theorem rxSeq_toNat (p : Byte) (bs : List Byte) : rxSeq p.toNat bs = bs.map (fun x => .rxbyte p false x) := by
  simp [rxSeq]

theorem assembleCmd_rxbrk (c : Cfg) (p b : Byte) :
    assembleCmd c (.rxbrk p.toNat b.toNat) = some [.rxbyte p true b] := by
  rw [assembleCmd_of_wellFormed c (by simp [AsmCmd.wellFormed])]
  simp [expandCmd]

theorem assembleCmd_rxseq (c : Cfg) (p : Byte) {bs : List Byte} (h : bs ≠ []) :
    assembleCmd c (.rxseq p.toNat (bs.map BitVec.toNat)) = some (bs.map (fun x => .rxbyte p false x)) := by
  rw [assembleCmd_of_wellFormed c (by simp [AsmCmd.wellFormed, h]), expandCmd, map_ofNat_map_toNat, rxSeq_toNat]

theorem assembleCmd_wframe (c : Cfg) (p : Byte) {bs : List Byte} (h : bs.length = 6) :
    assembleCmd c (.wframe p.toNat (bs.map BitVec.toNat)) =
      some ((c.writeId :: bs).map (fun x => .rxbyte p false x)) := by
  rw [assembleCmd_of_wellFormed c (by simp [AsmCmd.wellFormed, h]), expandCmd, map_ofNat_map_toNat, rxSeq_toNat]

theorem assembleCmd_rframe (c : Cfg) (p : Byte) {bs : List Byte} (h : bs.length = 3) :
    assembleCmd c (.rframe p.toNat (bs.map BitVec.toNat)) =
      some ((c.readId :: bs).map (fun x => .rxbyte p false x)) := by
  rw [assembleCmd_of_wellFormed c (by simp [AsmCmd.wellFormed, h]), expandCmd, map_ofNat_map_toNat, rxSeq_toNat]

/-- The argument of a break: `0x100` and the byte (R82). -/
theorem encode_rxbrk_arg_toNat (p b : Byte) : (encode (.rxbyte p true b)).arg.toNat = 0x100 + b.toNat := by
  have harg : (encode (.rxbyte p true b)).arg = rxArg true b := CmdWord.ofFields_arg 0x02#8 p (rxArg true b)
  calc (encode (.rxbyte p true b)).arg.toNat
    _ = (rxArg true b).toNat := congrArg BitVec.toNat harg
    _ = 1 * 2 ^ 8 + b.toNat := rxArg_toNat true b
    _ = 0x100 + b.toNat := by omega

/-- Settles O45: each pseudo-command by its own expansion. -/
theorem pseudoCommandsExpand : Obligations.PseudoCommandsExpand := by
  intro c p b b1 b2 b3 b4 b5 b6 bs hbs
  exact ⟨assembleCmd_rxbrk c p b, encode_rxbrk_arg_toNat p b, assembleCmd_rxseq c p hbs,
    assembleCmd_wframe c p (bs := [b1, b2, b3, b4, b5, b6]) rfl, assembleCmd_rframe c p (bs := [b1, b2, b3]) rfl⟩

end Sys2Proof.Machine

/-! SUPPORT. The LOOKUP of 40_baud_encoder.md: which operands the table of R101 has, and the response to each (R100 to
R103). -/

namespace Sys2Proof.Machine

/- The index of a rate (R101, R102). -/

/-- Each rate selects its own position in the table. -/
theorem baudIndex_of_rate {i : Fin 10} {baud : BitVec 32} (h : Claims.rates[i.val]? = some baud) :
    baudIndex baud = some i := by
  have hselects : ∀ j : Fin 10, (Claims.rates[j.val]?).bind baudIndex = some j := by decide
  have hi := hselects i
  rwa [h, Option.bind_some] at hi

/-- The operands with an index are the rates of R101, compared on all 32 bits (R102). -/
theorem baudIndex_eq_none_iff {baud : BitVec 32} : baudIndex baud = none ↔ baud ∉ Claims.rates := by
  have hkeys : Claims.rates = baudSet.map Prod.fst := rfl
  rw [baudIndex, List.lookup_eq_none_iff, hkeys, List.mem_map]
  constructor
  · rintro h ⟨entry, hentry, rfl⟩
    exact bne_iff_ne.mp (h entry hentry) rfl
  · intro h entry hentry
    exact bne_iff_ne.mpr fun heq => h ⟨entry, hentry, heq.symm⟩

/- The response, by the index (R100). -/

theorem exec_lookup_of_some {baud : BitVec 32} {i : Fin 10} (h : baudIndex baud = some i) (s : State) :
    exec (.lookup baud) s = .next (s.respond .ok (lookupRdata s.cfg.rom[i])) := by
  simp only [exec, execLookup, h]

theorem exec_lookup_of_none {baud : BitVec 32} (h : baudIndex baud = none) (s : State) :
    exec (.lookup baud) s = .next (s.raise .unsupportedBaud) := by
  simp only [exec, execLookup, h]

/-- Settles O8: by the index of the operand, and the third of the illegal forms of R76. -/
theorem lookupAnswers : Obligations.LookupAnswers :=
  ⟨fun s _ _ hrate => exec_lookup_of_some (baudIndex_of_rate hrate) s,
    fun s _ hrate => exec_lookup_of_none (baudIndex_eq_none_iff.mpr hrate) s,
    fun w hop hport => (illegalWordsAreAnswered.1 w).mpr (.inr (.inr (.inl ⟨hop, hport⟩)))⟩

/-- Settles O9: the index of the operand alone decides the status, and the configuration then gives `rdata`. -/
theorem lookupIsPure : Obligations.LookupIsPure := by
  intro baud s s' hcfg
  cases hi : baudIndex baud with
  | none =>
    have hrate := baudIndex_eq_none_iff.mp hi
    exact ⟨.unsupportedBaud, 0#64, exec_lookup_of_none hi s, exec_lookup_of_none hi s', fun h => absurd h hrate,
      fun _ => rfl⟩
  | some i =>
    have hindexed : baudIndex baud ≠ none := by rw [hi]; exact Option.some_ne_none i
    refine ⟨.ok, lookupRdata s.cfg.rom[i], exec_lookup_of_some hi s, ?_, fun _ => rfl,
      fun h => absurd (baudIndex_eq_none_iff.mpr h) hindexed⟩
    rw [hcfg]
    exact exec_lookup_of_some hi s'

end Sys2Proof.Machine

/-! SUPPORT. The frame receiver of 41_frame_receiver.md: the answer of RXBYTE in each row of R133, READ (R135), and the
bytes of one accumulation up to its end (R126, R127, R130). -/

namespace Sys2Proof.Machine

open Sys2Proof.Claims

/- The bytes of a frame in the buffer (R11). -/

theorem Memory.readFrom_of_reads {m : Memory} {a : Nat} {bs : List Byte}
    (h : ∀ k < bs.length, m.read (a + k) = bs[k]?) : m.readFrom a bs.length = some bs := by
  obtain ⟨cs, hcs, hlen⟩ := Memory.readFrom_isSome fun k hk => ⟨bs[k], (h k hk).trans (List.getElem?_eq_getElem hk)⟩
  obtain ⟨-, hread⟩ := Memory.readFrom_spec hcs
  rw [hcs, Option.some.injEq]
  refine List.ext_getElem? fun k => ?_
  by_cases hk : k < bs.length
  · rw [← hread k hk, h k hk]
  · rw [List.getElem?_eq_none (by omega), List.getElem?_eq_none (by omega)]

/-- Once its last byte is written behind the others, the frame stands in the buffer. -/
theorem frameOf_write_last {m : Memory} {n : Nat} {b : Byte} {f : RxFrame} (hlen : f.payload.length + 1 = f.len)
    (hn : n + 1 = f.len) (hbelow : ∀ k < n, m.read k = (f.id :: f.payload)[k]?)
    (hlast : (f.id :: f.payload)[n]? = some b) : frameOf? (m.write n b) f.len = some f := by
  have hreads : (m.write n b).readFrom 0 (f.id :: f.payload).length = some (f.id :: f.payload) := by
    refine Memory.readFrom_of_reads fun k hk => ?_
    rw [List.length_cons] at hk
    rw [Nat.zero_add, Memory.read_write]
    split
    · next hkn => rw [hkn, hlast]
    · exact hbelow k (by omega)
  rw [List.length_cons, hlen] at hreads
  rw [frameOf?, hreads]

/- One invocation, by its row of R133. -/

theorem PortState.complete_of_frame {q : PortState} {acc : Memory} {n : Nat} {f : RxFrame}
    (h : frameOf? acc n = some f) :
    q.complete acc n = .ok (
      { acc := acc, cur := 0, slot := some f, dropped := if q.slot = none then q.dropped else countOne q.dropped,
        overlong := q.overlong },
      { notify := true, drop := q.ready, discard := false }) := by
  rw [PortState.complete, h]
  cases hslot : q.slot <;> simp [PortState.ready, hslot, satInc_eq_countOne]

/-- The byte that brings a frame to its fixed length completes it. -/
theorem PortState.receive_of_frame {c : Cfg} {q : PortState} {b : Byte} {f : RxFrame} (hf : f.Valid c)
    (hcur : q.cur + 1 = f.len) (hframe : frameOf? (q.acc.write q.cur b) f.len = some f) :
    q.receive c b = q.complete (q.acc.write q.cur b) f.len := by
  obtain ⟨-, -, hfirst, -⟩ := frameOf_spec hframe
  have hcap := c.cap_ge
  have hle := hf.len_le
  rw [PortState.receive_of_first (by omega) hfirst]
  obtain ⟨⟨hid, hlen⟩ | ⟨hid, hlen⟩, -⟩ := hf
  · rw [if_pos ⟨hcur.trans hlen, hid⟩, hlen]
  · have hne : q.cur + 1 ≠ writeLen := by rw [hcur, hlen]; decide
    rw [if_neg fun hw => hne hw.1, if_pos ⟨hcur.trans hlen, hid⟩, hlen]

theorem PortState.receive_of_full {c : Cfg} {q : PortState} {b first : Byte} (hcur : q.cur + 1 = c.cap)
    (hfirst : q.acc.read 0 = some first) (hw : ¬(c.cap = 7 ∧ first = c.writeId)) :
    q.receive c b = .ok (q.discard (q.acc.write q.cur b)) := by
  have hcap := c.cap_ge
  have hread : (q.acc.write q.cur b).read 0 = some first := by rw [q.first_after_write, if_neg (by omega), hfirst]
  have hr : c.cap ≠ readLen := Nat.ne_of_gt (Nat.lt_of_lt_of_le (by decide) hcap)
  rw [PortState.receive_of_first (by omega) hread, hcur, if_neg hw, if_neg fun h => hr h.1, if_pos rfl]

theorem PortState.receive_of_other {c : Cfg} {q : PortState} {b first : Byte} (hcap : q.cur + 1 < c.cap)
    (hfirst : (if q.cur = 0 then some b else q.acc.read 0) = some first)
    (hw : ¬(first = c.writeId ∧ q.cur + 1 = 7)) (hr : ¬(first = c.readId ∧ q.cur + 1 = 4)) :
    q.receive c b = .ok (q.advance (q.acc.write q.cur b) (q.cur + 1)) := by
  rw [← q.first_after_write] at hfirst
  rw [PortState.receive_of_first (by omega) hfirst, if_neg fun h => hw h.symm, if_neg fun h => hr h.symm,
    if_neg (Nat.ne_of_lt hcap)]

/- RXBYTE on a port that exists. -/

/-- What an exact answer says of the port written and of the responses. -/
theorem exists_next_of_answered {i : Instr} {s : State} {p : PortId} {q : PortState} {d : BitVec 64}
    (h : exec i s = .next (answered (s.setPort p q) .ok d)) :
    ∃ t, exec i s = .next t ∧ t.port p = q ∧ t.rsps = s.rsps ++ [okResponse d] := by
  refine ⟨_, h, ?_, ?_⟩
  · exact (State.respond_port (s.setPort p q) .ok d p).trans (State.port_setPort_same s p q)
  · rw [answered, State.setPort_rsps, okResponse]

theorem exec_rxbyte_of_ok {s : State} {p : PortId} {brk : Bool} {b : Byte} {q : PortState} {fl : RxFlags}
    (h : (s.port p).receive s.cfg b = .ok (q, fl)) :
    exec (.rxbyte p.field brk b) s = .next (answered (s.setPort p q) .ok fl.rdata) :=
  execRxbyte_of_ok brk (portOf_field p) h

/-- R128 and R129 for a frame of either kind. -/
theorem exec_rxbyte_of_frame {s : State} {p : PortId} {brk : Bool} {b : Byte} {f : RxFrame} (hf : f.Valid s.cfg)
    (hcur : (s.port p).cur + 1 = f.len)
    (hbelow : ∀ k < (s.port p).cur, (s.port p).acc.read k = (f.id :: f.payload)[k]?)
    (hlast : (f.id :: f.payload)[(s.port p).cur]? = some b) :
    exec (.rxbyte p.field brk b) s =
      .next (answered
        (s.setPort p
          { acc := (s.port p).acc.write (s.port p).cur b
            cur := 0
            slot := some f
            dropped := if (s.port p).slot = none then (s.port p).dropped else countOne (s.port p).dropped
            overlong := (s.port p).overlong })
        .ok (if (s.port p).slot = none then 1#64 else 3#64)) := by
  have hframe := frameOf_write_last hf.2 hcur hbelow hlast
  rw [exec_rxbyte_of_ok ((PortState.receive_of_frame hf hcur hframe).trans (PortState.complete_of_frame hframe)),
    RxFlags.rdata_complete]

/-- Settles O11: the bytes are those of a frame that R23 allows. -/
theorem writeFrameCompletes : Obligations.WriteFrameCompletes := by
  intro s p brk b1 b2 b3 b4 b5 b hcur h0 h1 h2 h3 h4 h5
  have hbelow : ∀ k < (s.port p).cur, (s.port p).acc.read k = [s.cfg.writeId, b1, b2, b3, b4, b5, b][k]? := by
    rw [hcur]
    intro k hk
    match k, hk with
    | 0, _ => exact h0
    | 1, _ => exact h1
    | 2, _ => exact h2
    | 3, _ => exact h3
    | 4, _ => exact h4
    | 5, _ => exact h5
  have hexec := exec_rxbyte_of_frame (brk := brk) (b := b)
    (f := { id := s.cfg.writeId, len := 7, payload := [b1, b2, b3, b4, b5, b] })
    ⟨.inl ⟨rfl, rfl⟩, rfl⟩ (by rw [hcur]) hbelow (by rw [hcur]; rfl)
  rwa [hcur] at hexec

/-- Settles O12: the bytes are those of a frame that R23 allows. -/
theorem readFrameCompletes : Obligations.ReadFrameCompletes := by
  intro s p brk b1 b2 b hcur h0 h1 h2
  have hbelow : ∀ k < (s.port p).cur, (s.port p).acc.read k = [s.cfg.readId, b1, b2, b][k]? := by
    rw [hcur]
    intro k hk
    match k, hk with
    | 0, _ => exact h0
    | 1, _ => exact h1
    | 2, _ => exact h2
  have hexec := exec_rxbyte_of_frame (brk := brk) (b := b)
    (f := { id := s.cfg.readId, len := 4, payload := [b1, b2, b] })
    ⟨.inr ⟨rfl, rfl⟩, rfl⟩ (by rw [hcur]) hbelow (by rw [hcur]; rfl)
  rwa [hcur] at hexec

/-- Settles O13: `CAP` is at least 7, so only a write frame could have completed. -/
theorem fullBufferIsDiscarded : Obligations.FullBufferIsDiscarded := by
  intro s p brk b first hcur hfirst hw
  rw [exec_rxbyte_of_ok (PortState.receive_of_full hcur hfirst hw), satInc_eq_countOne]
  rfl

/-- Settles O14: none of the tests of R124 holds. -/
theorem otherBytesAccumulate : Obligations.OtherBytesAccumulate := by
  intro s p brk b first hcap hfirst hw hr
  rw [exec_rxbyte_of_ok (PortState.receive_of_other hcap hfirst hw hr)]
  rfl

/- READ. -/

theorem exec_read_of_pending {s : State} {p : PortId} {f : RxFrame} (h : (s.port p).slot = some f) :
    exec (.read p.field) s = .next (answered (s.setPort p { s.port p with slot := none }) .ok f.pack) :=
  (exec_namedPort_next_iff (namedPort_read_field p)).mpr ⟨_, _, PortState.answer_read_of_pending h s.cfg p.field, rfl⟩

theorem exec_read_of_empty {s : State} {p : PortId} (h : (s.port p).slot = none) :
    exec (.read p.field) s = .next (answered s .ok 0#64) := by
  simp only [exec, execRead, portOf_field, h]
  rfl

theorem exec_read_of_invalidPort {s : State} {p8 : Byte} (h : 3 ≤ p8.toNat) :
    exec (.read p8) s = .next (answered s .invalidPort 0#64) := by
  simp only [exec, execRead, portOf_eq_none.mpr h]
  rfl

/-- Settles O21: by the port field and the slot, and the fifth of the illegal forms of R76. -/
theorem readCommand : Obligations.ReadCommand :=
  ⟨fun _ _ _ => exec_read_of_pending, fun _ _ => exec_read_of_empty, fun _ _ => exec_read_of_invalidPort,
    fun w hop harg => (illegalWordsAreAnswered.1 w).mpr (.inr (.inr (.inr (.inr ⟨.inl hop, harg⟩))))⟩

/- Sequences of commands. -/

theorem execAll_append_next_iff {is js : List Instr} {s t : State} :
    execAll (is ++ js) s = .next t ↔ ∃ u, execAll is s = .next u ∧ execAll js u = .next t := by
  induction is generalizing s with
  | nil => simp
  | cons i is ih =>
    simp only [List.cons_append, execAll_cons_next_iff, ih]
    constructor
    · rintro ⟨v, hv, u, hu, ht⟩
      exact ⟨u, ⟨v, hv, hu⟩, ht⟩
    · rintro ⟨u, ⟨v, hv, hu⟩, ht⟩
      exact ⟨v, hv, u, hu, ht⟩

theorem execAll_concat_next_iff {is : List Instr} {i : Instr} {s t : State} :
    execAll (is ++ [i]) s = .next t ↔ ∃ u, execAll is s = .next u ∧ exec i u = .next t := by
  simp only [execAll_append_next_iff, execAll_cons_next_iff, execAll_nil, Host.Outcome.next.injEq, exists_eq_right]

theorem execAll_cfg {is : List Instr} {s t : State} (h : execAll is s = .next t) : t.cfg = s.cfg := by
  induction is generalizing s with
  | nil => cases h; rfl
  | cons i is ih =>
    obtain ⟨u, hu, ht⟩ := execAll_cons_next_iff.mp h
    rw [ih ht, exec_cfg hu]

/- One accumulation, from an `Idle` port. -/

/-- Bytes that begin an accumulation and do not end it (R124): fewer than `CAP`, and fewer than the frame the first of
them announces. -/
structure Unended (c : Cfg) (bs : List Byte) : Prop where
  belowCap : bs.length < c.cap
  belowWrite : bs.head? = some c.writeId → bs.length < writeLen
  belowRead : bs.head? = some c.readId → bs.length < readLen

theorem Unended.of_concat {c : Cfg} {bs : List Byte} {b : Byte} (h : Unended c (bs ++ [b])) : Unended c bs := by
  have hhead : ∀ x, bs.head? = some x → (bs ++ [b]).head? = some x := fun x hx => by
    rw [List.head?_append, hx, Option.some_or]
  obtain ⟨hcap, hw, hr⟩ := h
  rw [List.length_append] at hcap hw hr
  exact ⟨by omega, fun hx => Nat.lt_of_succ_lt (hw (hhead _ hx)), fun hx => Nat.lt_of_succ_lt (hr (hhead _ hx))⟩

/-- `t` is reached from `s` by the bytes `bs` on port `p`, all of them kept in the buffer. -/
structure Accumulated (p : PortId) (bs : List Byte) (s t : State) : Prop where
  run : execAll (receiveAll p bs) s = .next t
  cur : (t.port p).cur = bs.length
  slot : (t.port p).slot = (s.port p).slot
  dropped : (t.port p).dropped = (s.port p).dropped
  overlong : (t.port p).overlong = (s.port p).overlong
  rsps : t.rsps = s.rsps ++ List.replicate bs.length (okResponse 0#64)

theorem Accumulated.read {p : PortId} {bs : List Byte} {s t : State} (h : Accumulated p bs s t)
    (hidle : (s.port p).cur = 0) {k : Nat} (hk : k < bs.length) : (t.port p).acc.read k = bs[k]? :=
  bytesKeepArrivalOrder s t p bs hidle h.run h.cur k hk

/-- The first byte after one more is received (R125). -/
theorem Accumulated.first_concat {p : PortId} {bs : List Byte} {s t : State} (h : Accumulated p bs s t)
    (hidle : (s.port p).cur = 0) (b : Byte) :
    (if (t.port p).cur = 0 then some b else (t.port p).acc.read 0) = (bs ++ [b]).head? := by
  have hcur := h.cur
  cases bs with
  | nil =>
    have hzero : (t.port p).cur = 0 := hcur
    rw [if_pos hzero, List.nil_append, List.head?_cons]
  | cons x xs =>
    have hne : (t.port p).cur ≠ 0 := hcur ▸ Nat.succ_ne_zero xs.length
    rw [if_neg hne, h.read hidle (Nat.succ_pos _), List.cons_append, List.head?_cons, List.getElem?_cons_zero]

/-- One byte more on port `p`, whatever it does there. -/
theorem Accumulated.concat {p : PortId} {bs : List Byte} {b : Byte} {s t : State} {q : PortState} {d : BitVec 64}
    (h : Accumulated p bs s t) (hb : exec (.rxbyte p.field false b) t = .next (answered (t.setPort p q) .ok d)) :
    ∃ u, execAll (receiveAll p (bs ++ [b])) s = .next u ∧ u.port p = q ∧
      u.rsps = s.rsps ++ List.replicate bs.length (okResponse 0#64) ++ [okResponse d] := by
  obtain ⟨u, hu, hport, hrsps⟩ := exists_next_of_answered hb
  refine ⟨u, ?_, hport, by rw [hrsps, h.rsps]⟩
  rw [receiveAll, List.map_append]
  exact execAll_concat_next_iff.mpr ⟨t, h.run, hu⟩

theorem exists_concat_of_ne_nil {bs : List Byte} (h : bs ≠ []) : ∃ init last, bs = init ++ [last] :=
  ⟨_, _, (List.dropLast_concat_getLast h).symm⟩

/-- Bytes that end no accumulation are kept, each answered with 0. -/
theorem Unended.accumulated {s : State} {p : PortId} {bs : List Byte} (hbs : Unended s.cfg bs)
    (hidle : (s.port p).cur = 0) : ∃ t, Accumulated p bs s t := by
  induction hlen : bs.length generalizing bs with
  | zero =>
    obtain rfl := List.eq_nil_of_length_eq_zero hlen
    exact ⟨s, rfl, hidle, rfl, rfl, rfl, (List.append_nil _).symm⟩
  | succ n ih =>
    obtain ⟨bs, b, rfl⟩ := exists_concat_of_ne_nil (List.ne_nil_of_length_eq_add_one hlen)
    obtain ⟨t, ht⟩ := ih hbs.of_concat (by simpa only [List.length_append, List.length_singleton,
      Nat.add_right_cancel_iff] using hlen)
    obtain ⟨hcap, hw, hr⟩ := hbs
    have hfirst := ht.first_concat hidle b
    have hhead : (bs ++ [b]).head? ≠ none := by simp
    obtain ⟨first, hx⟩ := Option.ne_none_iff_exists'.mp hhead
    rw [hx] at hfirst hw hr
    rw [List.length_append, List.length_singleton, ← ht.cur, ← execAll_cfg ht.run] at hcap hw hr
    have hexec := otherBytesAccumulate t p false b first hcap hfirst
      (fun ⟨hid, hlen⟩ => Nat.ne_of_lt (hw (congrArg some hid)) hlen)
      (fun ⟨hid, hlen⟩ => Nat.ne_of_lt (hr (congrArg some hid)) hlen)
    obtain ⟨u, hu, hport, hrsps⟩ := ht.concat hexec
    refine ⟨u, hu, ?_, ?_, ?_, ?_, ?_⟩
    · rw [hport, ht.cur, List.length_append, List.length_singleton]
    · rw [hport, ht.slot]
    · rw [hport, ht.dropped]
    · rw [hport, ht.overlong]
    · rw [hrsps, List.length_append, List.length_singleton, List.replicate_succ', List.append_assoc]

/-- The first of some bytes without the last is the first of them all. -/
theorem head_of_concat_eq_cons {b x last : Byte} {bs init : List Byte} (h : b :: bs = init ++ [last])
    (hx : init.head? = some x) : x = b := by
  have hhead := congrArg List.head? h
  rw [List.head?_append, hx, List.head?_cons, Option.some_or, Option.some.injEq] at hhead
  exact hhead.symm

/-- A frame without its last byte ends no accumulation. -/
theorem RxFrame.Valid.unended {c : Cfg} {f : RxFrame} {init : List Byte} {last : Byte} (hf : f.Valid c)
    (h : f.id :: f.payload = init ++ [last]) : Unended c init := by
  have hcap := c.cap_ge
  have hle := hf.len_le
  obtain ⟨hkind, hpay⟩ := hf
  have hlen := congrArg List.length h
  rw [List.length_cons, List.length_append, List.length_singleton] at hlen
  refine ⟨by omega, fun hx => ?_, fun hx => ?_⟩
  · have hid := head_of_concat_eq_cons h hx
    obtain ⟨-, hw⟩ | ⟨hr, -⟩ := hkind
    · omega
    · exact absurd (hid.trans hr) c.ids_ne
  · have hid := head_of_concat_eq_cons h hx
    obtain ⟨hw, -⟩ | ⟨-, hr⟩ := hkind
    · exact absurd (hid.trans hw).symm c.ids_ne
    · omega

/-- The bytes of a frame, received by an `Idle` port, deliver the frame (R126 to R129). -/
theorem RxFrame.Valid.delivered {s : State} {p : PortId} {f : RxFrame} (hf : f.Valid s.cfg)
    (hidle : (s.port p).cur = 0) :
    ∃ t, execAll (receiveAll p (f.id :: f.payload)) s = .next t ∧
      (t.port p).cur = 0 ∧ (t.port p).slot = some f ∧
      (t.port p).dropped = (if (s.port p).slot = none then (s.port p).dropped else countOne (s.port p).dropped) ∧
      (t.port p).overlong = (s.port p).overlong ∧
      t.rsps = s.rsps ++ List.replicate f.payload.length (okResponse 0#64) ++
        [okResponse (if (s.port p).slot = none then 1#64 else 3#64)] := by
  obtain ⟨init, last, hsplit⟩ := exists_concat_of_ne_nil (List.cons_ne_nil f.id f.payload)
  have hlen : f.payload.length = init.length := by simpa using congrArg List.length hsplit
  obtain ⟨t, ht⟩ := (hf.unended hsplit).accumulated hidle
  have hvalid : f.Valid t.cfg := by rwa [execAll_cfg ht.run]
  have hcur : (t.port p).cur + 1 = f.len := by rw [ht.cur, ← hlen, hf.2]
  have hbelow : ∀ k < (t.port p).cur, (t.port p).acc.read k = (f.id :: f.payload)[k]? := fun k hk => by
    rw [ht.cur] at hk
    rw [ht.read hidle hk, hsplit, List.getElem?_append_left hk]
  have hlast : (f.id :: f.payload)[(t.port p).cur]? = some last := by
    rw [ht.cur, hsplit, List.getElem?_concat_length]
  obtain ⟨u, hu, hport, hrsps⟩ := ht.concat (exec_rxbyte_of_frame hvalid hcur hbelow hlast)
  refine ⟨u, by rw [hsplit, hu], ?_, ?_, ?_, ?_, ?_⟩
  · rw [hport]
  · rw [hport]
  · rw [hport, ht.slot, ht.dropped]
  · rw [hport, ht.overlong]
  · rw [hrsps, ht.slot, hlen]

/-- A frame received by an `Idle` port is the one READ then answers. -/
theorem RxFrame.Valid.readBack {s : State} {p : PortId} {f : RxFrame} (hf : f.Valid s.cfg)
    (hidle : (s.port p).cur = 0) :
    ∃ t, execAll (receiveAll p (f.id :: f.payload) ++ [.read p.field]) s = .next t ∧
      t.rsps = s.rsps ++ List.replicate f.payload.length (okResponse 0#64) ++
        [okResponse (if (s.port p).slot = none then 1#64 else 3#64), okResponse f.pack] ∧
      (t.port p).cur = 0 ∧ (t.port p).slot = none ∧
      (t.port p).dropped = (if (s.port p).slot = none then (s.port p).dropped else countOne (s.port p).dropped) ∧
      (t.port p).overlong = (s.port p).overlong := by
  obtain ⟨u, hu, hcur, hslot, hdropped, hoverlong, hrsps⟩ := hf.delivered hidle
  obtain ⟨t, ht, hport, htrsps⟩ := exists_next_of_answered (exec_read_of_pending hslot)
  refine ⟨t, execAll_concat_next_iff.mpr ⟨u, hu, ht⟩, ?_, ?_, ?_, ?_, ?_⟩
  · rw [htrsps, hrsps, List.append_assoc, List.singleton_append]
  · rw [hport, hcur]
  · rw [hport]
  · rw [hport, hdropped]
  · rw [hport, hoverlong]

theorem exec_reconf_field (s : State) (p : PortId) :
    exec (.reconf p.field) s =
      .next (answered (s.setPort p { s.port p with cur := 0, slot := none }) .ok 0#64) :=
  exec_of_namedPort (i := .reconf p.field) (portOf_field p) s

/-- The packed write frame (R11, R79). -/
theorem pack_writeFrame (id b1 b2 b3 b4 b5 b6 : Byte) :
    RxFrame.pack { id := id, len := 7, payload := [b1, b2, b3, b4, b5, b6] } =
      0x87#8 ++ b6 ++ b5 ++ b4 ++ b3 ++ b2 ++ b1 ++ id := by
  have hhead : 1#1 ++ 0#3 ++ BitVec.ofNat 4 7 = 0x87#8 := by decide
  simp only [RxFrame.pack, hhead]
  rfl

/-- The packed read frame, zero beyond its four bytes (R11, R79). -/
theorem pack_readFrame (id b1 b2 b3 : Byte) :
    RxFrame.pack { id := id, len := 4, payload := [b1, b2, b3] } = 0x84#8 ++ 0#24 ++ b3 ++ b2 ++ b1 ++ id := by
  have hhead : 1#1 ++ 0#3 ++ BitVec.ofNat 4 4 ++ 0#8 ++ 0#8 ++ 0#8 = 0x84#8 ++ 0#24 := by decide
  have hbeyond : ∀ k, 4 ≤ k → RxFrame.byte { id := id, len := 4, payload := [b1, b2, b3] } k = 0#8 :=
    fun k hk => if_neg (by simpa using hk)
  simp only [RxFrame.pack, hbeyond, hhead, Nat.le_refl, Nat.reduceLeDiff]
  rfl

/-- Settles O37: RECONF leaves the port `Idle` with an empty slot, and a write frame is then read back. -/
theorem writeFrameRoundTrip : Obligations.WriteFrameRoundTrip := by
  intro s p b1 b2 b3 b4 b5 b6
  obtain ⟨u, hu, hport, hursps⟩ := exists_next_of_answered (exec_reconf_field s p)
  have hvalid : RxFrame.Valid u.cfg { id := s.cfg.writeId, len := 7, payload := [b1, b2, b3, b4, b5, b6] } :=
    ⟨.inl ⟨by rw [exec_cfg hu], rfl⟩, rfl⟩
  obtain ⟨t, ht, hrsps, hcur, hslot, hdropped, hoverlong⟩ := hvalid.readBack (p := p) (by rw [hport])
  rw [hport] at hrsps hdropped hoverlong
  refine ⟨t, execAll_cons_next_iff.mpr ⟨u, hu, ht⟩, ?_, hcur, hslot, hdropped, hoverlong⟩
  rw [hrsps, hursps, pack_writeFrame, List.append_assoc s.rsps, List.singleton_append]
  rfl

/-- Settles O38: a read frame is read back. -/
theorem readFrameRoundTrip : Obligations.ReadFrameRoundTrip := by
  intro s p b1 b2 b3 hidle
  have hvalid : RxFrame.Valid s.cfg { id := s.cfg.readId, len := 4, payload := [b1, b2, b3] } :=
    ⟨.inr ⟨rfl, rfl⟩, rfl⟩
  obtain ⟨t, ht, hrsps, hcur, hslot, hdropped, -⟩ := hvalid.readBack hidle
  rw [pack_readFrame] at hrsps
  exact ⟨t, ht, hrsps, hcur, hslot, hdropped⟩

/-- Settles O40: all bytes but the last end no accumulation, and the last fills the buffer. -/
theorem unrecognisedByteSwallowsCapBytes : Obligations.UnrecognisedByteSwallowsCapBytes := by
  intro s p b bs hidle hw hr hcap
  obtain ⟨init, last, hsplit⟩ := exists_concat_of_ne_nil (List.cons_ne_nil b bs)
  have hlen : bs.length = init.length := by simpa using congrArg List.length hsplit
  have hge := s.cfg.cap_ge
  have hunended : Unended s.cfg init :=
    ⟨by omega, fun hx => absurd (head_of_concat_eq_cons hsplit hx).symm hw,
      fun hx => absurd (head_of_concat_eq_cons hsplit hx).symm hr⟩
  obtain ⟨t, ht⟩ := hunended.accumulated hidle
  have hcfg := execAll_cfg ht.run
  have hpos : 0 < init.length := by omega
  have hfirst : (t.port p).acc.read 0 = some b := by
    rw [ht.read hidle hpos, ← List.getElem?_append_left (l₂ := [last]) hpos, ← hsplit, List.getElem?_cons_zero]
  have hfull : (t.port p).cur + 1 = t.cfg.cap := by rw [ht.cur, hcfg, ← hlen, hcap]
  obtain ⟨u, hu, hport, hrsps⟩ :=
    ht.concat (fullBufferIsDiscarded t p false last b hfull hfirst fun h => hw (h.2.trans (by rw [hcfg])))
  refine ⟨u, by rw [hsplit, hu], ?_, ?_, ?_, ?_, ?_⟩
  · rw [hport]
  · rw [hport, ht.slot]
  · rw [hport, ht.dropped]
  · rw [hport, ht.overlong]
  · rw [hrsps, hlen]

end Sys2Proof.Machine

/-! SUPPORT. The control and status commands of 42_control_status.md: RECONF (R160, R161), STAT (R163, R164), and two
frames with no READ between (R165). -/

namespace Sys2Proof.Machine

open Sys2Proof.Claims

/- A port field or an argument that RECONF and STAT do not admit. -/

theorem exec_control_of_invalidPort {s : State} {p8 : Byte} (h : 3 ≤ p8.toNat) :
    exec (.reconf p8) s = .next (answered s .invalidPort 0#64) ∧
      exec (.stat p8) s = .next (answered s .invalidPort 0#64) := by
  simp only [exec, execReconf, execStat, portOf_eq_none.mpr h]
  exact ⟨rfl, rfl⟩

theorem decode_illegal_of_arg_ne_zero {w : CmdWord} (hop : w.op = 0x03#8 ∨ w.op = 0x04#8 ∨ w.op = 0x05#8)
    (harg : w.arg ≠ 0#32) : ∃ e, decode w = .illegal e :=
  (illegalWordsAreAnswered.1 w).mpr (.inr (.inr (.inr (.inr ⟨hop, harg⟩))))

/- RECONF. -/

/-- RECONF has nothing to empty on an `Idle` port with an empty slot. -/
theorem exec_reconf_of_emptied {s : State} {p : PortId} (hcur : (s.port p).cur = 0) (hslot : (s.port p).slot = none) :
    exec (.reconf p.field) s = .next (answered s .ok 0#64) := by
  have hkept : { s.port p with cur := 0, slot := none } = s.port p := by rw [← hcur, ← hslot]
  rw [exec_reconf_field, hkept, State.setPort_port_self]

theorem exec_reconf_twice {s t u : State} {p : PortId} (ht : exec (.reconf p.field) s = .next t)
    (hu : exec (.reconf p.field) t = .next u) : u = answered t .ok 0#64 := by
  obtain ⟨v, hv, hport, -⟩ := exists_next_of_answered (exec_reconf_field s p)
  obtain rfl : v = t := Host.Outcome.next.inj (hv.symm.trans ht)
  have hempty := exec_reconf_of_emptied (s := v) (p := p) (by rw [hport]) (by rw [hport])
  exact Host.Outcome.next.inj (hu.symm.trans hempty)

/-- Settles O23: by the port field and the argument; a second RECONF finds the port emptied. -/
theorem reconfCommand : Obligations.ReconfCommand := by
  refine ⟨exec_reconf_field, fun s p8 h => (exec_control_of_invalidPort h).1,
    fun w hop harg => decode_illegal_of_arg_ne_zero (.inr (.inl hop)) harg, fun s t u p r ht hu => ?_⟩
  obtain rfl := exec_reconf_twice ht hu
  exact State.respond_port t .ok 0#64 r

/- STAT. -/

theorem exec_stat_field (s : State) (p : PortId) :
    exec (.stat p.field) s = .next (answered s .ok (statRdata (s.port p).dropped (s.port p).overlong)) := by
  simp only [exec, execStat, portOf_field]
  rfl

@[simp] theorem statRdata_dropped (dropped overlong : BitVec 32) :
    (statRdata dropped overlong).extractLsb' 0 32 = dropped := BitVec.extractLsb'_append_eq_right

@[simp] theorem statRdata_overlong (dropped overlong : BitVec 32) :
    (statRdata dropped overlong).extractLsb' 32 32 = overlong := BitVec.extractLsb'_append_eq_left

/-- Settles O24: by the port field and the argument, and the layout of R79. -/
theorem statCommand : Obligations.StatCommand :=
  ⟨fun s p => ⟨_, exec_stat_field s p, statRdata_dropped _ _, statRdata_overlong _ _⟩,
    fun _ _ h => (exec_control_of_invalidPort h).2,
    fun _ hop harg => decode_illegal_of_arg_ne_zero (.inr (.inr hop)) harg⟩

/- Two frames with no READ between (R165). -/

theorem countOne_toNat_of_lt {v : BitVec 32} (h : v.toNat < 2 ^ 32 - 1) : (countOne v).toNat = v.toNat + 1 := by
  rw [← satInc_eq_countOne, satInc, if_pos h, BitVec.toNat_add, BitVec.toNat_ofNat]
  omega

theorem execAll_receiveAll_append_next_iff {p : PortId} {bs cs : List Byte} {s t : State} :
    execAll (receiveAll p (bs ++ cs)) s = .next t ↔
      ∃ u, execAll (receiveAll p bs) s = .next u ∧ execAll (receiveAll p cs) u = .next t := by
  rw [receiveAll, List.map_append]
  exact execAll_append_next_iff

/-- Of two frames received back to back the second stays in the slot, and the first is counted as dropped. -/
theorem RxFrame.Valid.delivered_pair {s : State} {p : PortId} {f g : RxFrame} (hf : f.Valid s.cfg) (hg : g.Valid s.cfg)
    (hidle : (s.port p).cur = 0) (hempty : (s.port p).slot = none) :
    ∃ t, execAll (receiveAll p (f.id :: f.payload ++ g.id :: g.payload)) s = .next t ∧
      (t.port p).slot = some g ∧ (t.port p).dropped = countOne (s.port p).dropped ∧
      (t.port p).overlong = (s.port p).overlong := by
  obtain ⟨u, hu, hucur, huslot, hudropped, huoverlong, -⟩ := hf.delivered hidle
  rw [← execAll_cfg hu] at hg
  obtain ⟨t, ht, -, hslot, hdropped, hoverlong, -⟩ := hg.delivered hucur
  rw [if_pos hempty] at hudropped
  rw [huslot, if_neg (Option.some_ne_none f), hudropped] at hdropped
  exact ⟨t, execAll_receiveAll_append_next_iff.mpr ⟨u, hu, ht⟩, hslot, hdropped, hoverlong.trans huoverlong⟩

/-- Settles O39: the second frame overwrites the first in the slot, STAT shows the drop counted, and of the two READs
the first empties the slot. -/
theorem secondWriteFrameWins : Obligations.SecondWriteFrameWins := by
  intro s p a1 a2 a3 a4 a5 a6 c1 c2 c3 c4 c5 c6 hidle hempty hbelow
  have hvalid (payload : List Byte) (hlen : payload.length + 1 = 7) :
      RxFrame.Valid s.cfg { id := s.cfg.writeId, len := 7, payload := payload } := ⟨.inl ⟨rfl, rfl⟩, hlen⟩
  obtain ⟨t, ht, hslot, hdropped, hoverlong⟩ :=
    (hvalid [a1, a2, a3, a4, a5, a6] rfl).delivered_pair (hvalid [c1, c2, c3, c4, c5, c6] rfl) hidle hempty
  have hcount : (t.port p).dropped.toNat = (s.port p).dropped.toNat + 1 := by
    rw [hdropped, countOne_toNat_of_lt hbelow]
  obtain ⟨u, hu, hrsps, -⟩ := readTwiceReturnsTheFrameOnce t p _ hslot
  rw [pack_writeFrame] at hrsps
  refine ⟨t, ht, hslot, hcount, hoverlong, ⟨_, _, exec_stat_field s p, exec_stat_field t p, ?_, ?_⟩, u, hu, hrsps⟩
  · rw [statRdata_dropped, statRdata_dropped, hcount]
  · rw [statRdata_overlong, statRdata_overlong, hoverlong]

end Sys2Proof.Machine

/-! SUPPORT. The errors of 60_exceptions.md: port fields that name no port (R182), what an error leaves unchanged (R190),
and the response every command gives (R192, R223). -/

namespace Sys2Proof.Machine

open Sys2Proof.Claims

/- Port fields that name no port. -/

theorem exec_rxbyte_of_invalidPort {s : State} {p8 : Byte} (h : 3 ≤ p8.toNat) (brk : Bool) (b : Byte) :
    exec (.rxbyte p8 brk b) s = .next (answered s .invalidPort 0#64) := by
  simp only [exec, execRxbyte, portOf_eq_none.mpr h]
  rfl

/-- Settles O10: each of the four commands looks at the port field before anything else. -/
theorem invalidPortIsRefused : Obligations.InvalidPortIsRefused := fun _ _ h =>
  ⟨exec_rxbyte_of_invalidPort h, exec_read_of_invalidPort h, exec_control_of_invalidPort h⟩

/- A response is `OK` or raised by `State.raise`. -/

/-- A command that names no port is a LOOKUP, of a supported rate or not, or has an invalid port field (R186). -/
theorem exec_ok_or_raise_of_noPort {i : Instr} (hp : namedPort i = none) (s : State) :
    (∃ d, exec i s = .next (s.respond .ok d)) ∨ ∃ e, exec i s = .next (s.raise e) := by
  cases i with
  | lookup baud =>
    cases hi : baudIndex baud with
    | none => exact .inr ⟨_, exec_lookup_of_none hi s⟩
    | some k => exact .inl ⟨_, exec_lookup_of_some hi s⟩
  | rxbyte p8 brk b => exact .inr ⟨_, exec_rxbyte_of_invalidPort (portOf_eq_none.mp hp) brk b⟩
  | read p8 => exact .inr ⟨_, exec_read_of_invalidPort (portOf_eq_none.mp hp)⟩
  | reconf p8 => exact .inr ⟨_, (exec_control_of_invalidPort (portOf_eq_none.mp hp)).1⟩
  | stat p8 => exact .inr ⟨_, (exec_control_of_invalidPort (portOf_eq_none.mp hp)).2⟩

theorem exec_ok_or_raise {i : Instr} {s t : State} (h : exec i s = .next t) :
    (∃ (v : State) (d : BitVec 64), v.rsps = s.rsps ∧ t = v.respond .ok d) ∨ ∃ e, t = s.raise e := by
  cases hp : namedPort i with
  | none =>
    obtain ⟨d, hok⟩ | ⟨e, hraise⟩ := exec_ok_or_raise_of_noPort hp s
    · exact .inl ⟨s, d, rfl, Host.Outcome.next.inj (h.symm.trans hok)⟩
    · exact .inr ⟨e, Host.Outcome.next.inj (h.symm.trans hraise)⟩
  | some p =>
    obtain ⟨q, d, -, ht⟩ := (exec_namedPort_next_iff hp).mp h
    exact .inl ⟨s.setPort p q, d, State.setPort_rsps s p q, ht⟩

theorem step_ok_or_raise {s t : State} {w : CmdWord} {rest : List CmdWord} (hs : s.cmds = w :: rest)
    (h : step s = .next t) :
    (∃ (v : State) (d : BitVec 64), v.rsps = s.rsps ∧ t = v.respond .ok d) ∨ ∃ e, t = State.raise { s with cmds := rest } e := by
  cases hw : decode w with
  | illegal why =>
    rw [step_of_illegal hs hw] at h
    exact .inr ⟨.illegalCommand, (Host.Outcome.next.inj h).symm⟩
  | command i =>
    rw [step_of_command hs hw] at h
    exact exec_ok_or_raise h

/-- Settles O27: a response other than `OK` is one that `State.raise` gave. -/
theorem errorsChangeNoState : Obligations.ErrorsChangeNoState := by
  intro s t w rest r hs h hr hne
  obtain ⟨v, d, hv, rfl⟩ | ⟨e, rfl⟩ := step_ok_or_raise hs h
  · rw [State.respond_rsps, hv] at hr
    obtain ⟨rfl, -⟩ := List.cons.inj (List.append_cancel_left hr)
    exact absurd rfl hne
  · rw [State.raise_rsps] at hr
    obtain ⟨rfl, -⟩ := List.cons.inj (List.append_cancel_left hr)
    exact ⟨rfl, rfl⟩

/- Every command answers. -/

theorem exec_rsps {i : Instr} {s t : State} (h : exec i s = .next t) :
    ∃ r, t.rsps = s.rsps ++ [r] ∧ ((namedPort i).isSome = true → r.status = .ok) := by
  obtain ⟨hp, e, d, rfl⟩ | ⟨p, q, d, -, -, rfl⟩ := exec_cases h
  · refine ⟨_, State.respond_rsps s e d, fun hsome => ?_⟩
    rw [hp] at hsome
    cases hsome
  · exact ⟨okResponse d, by rw [State.respond_rsps, State.setPort_rsps, okResponse], fun _ => rfl⟩

/-- Settles O33: no command stops in a state that meets the invariant, and one that answers gives one response. -/
theorem everyCommandCompletes : Obligations.EveryCommandCompletes := by
  intro i s hs
  obtain ⟨t, ht⟩ := exec_next_of_inv hs i
  obtain ⟨r, hr, hok⟩ := exec_rsps ht
  exact ⟨t, r, ht, hr, hok⟩

end Sys2Proof.Machine

/-! SUPPORT. Reset and hazards of 70_reset_and_hazards.md: a step never stops and answers the word it takes (R223), and the
first commands after reset (R211). -/

namespace Sys2Proof.Machine

/- Every step completes. -/

/-- The words not yet taken play no part in the invariant of R35. -/
theorem State.inv_withCmds {s : State} (hs : s.Inv) (l : List CmdWord) : State.Inv { s with cmds := l } := fun p => by
  rw [State.port_cmds]
  exact hs p

theorem step_next_of_inv {s : State} (hs : s.Inv) : ∃ t, step s = .next t := by
  cases hc : s.cmds with
  | nil => exact ⟨s, step_of_no_word hc⟩
  | cons w rest =>
    cases hw : decode w with
    | illegal e => exact ⟨_, step_of_illegal hc hw⟩
    | command i =>
      rw [step_of_command hc hw]
      exact exec_next_of_inv (State.inv_withCmds hs rest) i

/-- A step that completes takes one word and gives one response, in every state, reachable or not. -/
theorem step_takes_and_answers {s t : State} {w : CmdWord} {rest : List CmdWord} (hc : s.cmds = w :: rest)
    (h : step s = .next t) : t.cmds = rest ∧ ∃ r, t.rsps = s.rsps ++ [r] := by
  cases hw : decode w with
  | illegal e =>
    rw [step_of_illegal hc hw] at h
    obtain rfl := Host.Outcome.next.inj h
    exact ⟨rfl, _, rfl⟩
  | command i =>
    rw [step_of_command hc hw] at h
    obtain ⟨r, hr, -⟩ := exec_rsps h
    exact ⟨exec_cmds h, r, hr⟩

/-- Settles O32: the invariant lets the step complete, and a step that completes answers the word it takes. -/
theorem stepNeverStops : Obligations.StepNeverStops := by
  intro s hs
  obtain ⟨t, ht⟩ := step_next_of_inv hs
  exact ⟨t, ht, fun _ _ hc => step_takes_and_answers hc ht⟩

/- The first commands after reset. -/

/-- Settles O29: after reset every slot is empty and both counters are 0. -/
theorem firstCommandsAfterReset : Obligations.FirstCommandsAfterReset := by
  intro c p
  have hslot : ((State.resetWith c).port p).slot = none := by rw [State.resetWith_port]; rfl
  refine ⟨exec_read_of_empty hslot, ?_⟩
  rw [exec_stat_field, State.resetWith_port]
  rfl

end Sys2Proof.Machine
